-- ==== Sys2Proof/Word.lean ====
section
/-! DEFINITION. The word type of the model: every value of the block is an unsigned bit vector of at most 64 bits
(00_scope.md R7, R9), held zero-extended in 64 bits (log entry 11). -/

namespace Sys2Proof

/-- A value of the block: a field value, a register value, a lane mask or a response, zero-extended to the 64 bits of
the response (30_encoding.md R99). -/
abbrev Word := BitVec 64

end Sys2Proof
end

