-- ==== Sys2Proof/Config.lean ====
section
/-! DEFINITION. The schema of a bank (10_state.md section 1): what is fixed when the bank is constructed. Types only,
the one free value (log entry 8), and the spec's example bank EX (95_test_vectors.md section 3.1). -/

namespace Sys2Proof

/-- The field kinds (10_state.md R24). -/
inductive Kind where
  | flag
  | unsignedRange
  | enum
  | reserved
  | tagged
  deriving DecidableEq, Repr

/-- The access modes (10_state.md R25). -/
inductive Mode where
  | read
  | write
  | readWrite
  | writeOneToClear
  | readOnlyConstant
  deriving DecidableEq, Repr

/-- The invalid-value policies of an Enum field (10_state.md R23, 40_field_ops.md R130). -/
inductive Policy where
  | reject
  | clamp (d : Nat)
  | acceptVerbatim
  deriving DecidableEq, Repr

/-- READ_PACK_ORDER (00_scope.md R7): whether read callbacks run before or after packing (41_register_ops.md R160). -/
inductive PackOrder where
  | callbacksFirst
  | packFirst
  deriving DecidableEq, Repr

/-- The operators of a callback's expressions (log entry 16). -/
inductive BinOp where
  | and
  | or
  | xor
  | add
  | sub
  | shl
  | shr
  | eq
  | lt
  deriving DecidableEq, Repr

/-- An expression of a callback over its arguments and its view. DESIGN CHOICE (safe): log entries 3 and 16. -/
inductive Expr where
  /-- A constant. -/
  | const (v : Word)
  /-- The argument `old` of a write callback; the argument `x` of a read callback (40_field_ops.md R138, R145). -/
  | old
  /-- The argument `new` of a write callback; `x` again in a read callback. -/
  | new
  /-- The view's component for the storage field at bit offset `lo`. -/
  | field (lo : Nat)
  | not (e : Expr)
  | bin (op : BinOp) (a b : Expr)
  | ite (c t e : Expr)
  deriving DecidableEq, Repr

/-- A callback as plain data: a program that turns the view it receives into the view it leaves behind
(40_field_ops.md R138, R145). Every total function of a register's view is one of these: log entry 3. -/
inductive Program where
  | skip
  | assign (lo : Nat) (e : Expr)
  | seq (p q : Program)
  | ite (c : Expr) (p q : Program)
  deriving DecidableEq, Repr

/-- A field declaration, with the attributes of 10_state.md R23. `valid` is V; V and `policy` are ignored for the
kinds other than Enum (R28), `mode` for Reserved and Tagged (R26). -/
structure FieldDecl where
  lo     : Nat
  width  : Nat
  kind   : Kind
  mode   : Mode
  name   : Option String := none
  valid  : List Nat := []
  policy : Policy := .reject
  wcb    : Option Program := none
  rcb    : Option Program := none
  deriving DecidableEq, Repr

/-- A register declaration (10_state.md R22). The reset value is a W-bit vector: no rule reads a bit of `reset` at W or
above (log entry 11). -/
structure RegDecl where
  offset : Nat
  name   : String
  reset  : Word
  fields : List FieldDecl
  deriving DecidableEq, Repr

/-- A bank schema, the tuple of 10_state.md R20 with the parameters of 00_scope.md R7. -/
structure Schema where
  /-- N, the native access width in bytes. -/
  native    : Nat
  /-- P, the set of permitted access widths in bytes. -/
  permitted : List Nat
  /-- SIZE, the address span in bytes. -/
  size      : Nat
  /-- ADDR_BITS, the width of a request's OFFSET. -/
  addrBits  : Nat
  /-- READ_PACK_ORDER. -/
  packOrder : PackOrder
  /-- REGS, the register declarations. -/
  regs      : List RegDecl
  deriving DecidableEq, Repr

/-- The value the spec does not state: what SIZE answers when SIZE is 2^64 and does not fit the 64-bit response. It is
applied to the number of requests answered before. DESIGN CHOICE (safe): log entry 8. -/
opaque Config.freeValue : Nat → Word

/-- Register CTRL of bank EX (95_test_vectors.md section 3.1). -/
def Config.exCtrl : RegDecl where
  offset := 0x0
  name := "CTRL"
  reset := 0x00000003
  fields :=
    [{ lo := 0, width := 1, kind := .flag, mode := .readWrite, name := some "EN" },
     { lo := 1, width := 2, kind := .enum, mode := .readWrite, name := some "MODE", valid := [1, 2, 3],
       policy := .clamp 3 },
     { lo := 8, width := 8, kind := .unsignedRange, mode := .readWrite, name := some "DIV" },
     { lo := 16, width := 8, kind := .tagged, mode := .readWrite, name := some "TG" },
     { lo := 24, width := 8, kind := .unsignedRange, mode := .write, name := some "WO" }]

/-- Register STATUS of bank EX; RC's read callback is `RC := 0`. -/
def Config.exStatus : RegDecl where
  offset := 0x4
  name := "STATUS"
  reset := 0x0000A500
  fields :=
    [{ lo := 0, width := 4, kind := .unsignedRange, mode := .writeOneToClear, name := some "PEND" },
     { lo := 4, width := 1, kind := .flag, mode := .read, name := some "BUSY" },
     { lo := 5, width := 1, kind := .flag, mode := .read, name := some "RC", rcb := some (.assign 5 (.const 0)) },
     { lo := 8, width := 8, kind := .unsignedRange, mode := .readOnlyConstant, name := some "ID" }]

/-- Register SEL of bank EX; LVL's write callback is `if n = 0 then LVL := 3`, GO's is
`if n = 1 then (CNT := CNT + 1 mod 256; GO := 0)`. -/
def Config.exSel : RegDecl where
  offset := 0xC
  name := "SEL"
  reset := 0x00000003
  fields :=
    [{ lo := 0, width := 2, kind := .enum, mode := .readWrite, name := some "LVL", valid := [0, 1, 2, 3],
       policy := .acceptVerbatim, wcb := some (.ite (.bin .eq .new (.const 0)) (.assign 0 (.const 3)) .skip) },
     { lo := 2, width := 2, kind := .enum, mode := .readWrite, name := some "RJ", valid := [0, 1],
       policy := .reject },
     { lo := 4, width := 8, kind := .unsignedRange, mode := .readWrite, name := some "CNT" },
     { lo := 12, width := 1, kind := .flag, mode := .readWrite, name := some "GO",
       wcb := some (.ite (.bin .eq .new (.const 1))
         (.seq (.assign 4 (.bin .add (.field 4) (.const 1))) (.assign 12 (.const 0))) .skip) }]

/-- The spec's example bank EX (95_test_vectors.md section 3.1). -/
def Config.ex : Schema where
  native := 4
  permitted := [1, 2, 4]
  size := 0x10
  addrBits := 32
  packOrder := .callbacksFirst
  regs := [Config.exCtrl, Config.exStatus, Config.exSel]

end Sys2Proof
end

