-- ==== Sys2Proof/Syntax.lean ====
section
/-! DEFINITION. The requests of the block: the record as it arrives (30_encoding.md R91) and the operation it stands
for (R101), one constructor for each row of opcode_table.json. -/

namespace Sys2Proof

/-- A request record: the three fields of 30_encoding.md R91. OFFSET has ADDR_BITS bits, a parameter of the schema
(1..64): the decoder looks at that many low bits of `offset` (log entry 6). -/
structure Record where
  h      : BitVec 16
  offset : Word
  data   : Word
  deriving DecidableEq, Repr

/-- The operations (00_scope.md R5, 30_encoding.md R93, R100) and MALFORMED (R102), each with the operands it uses. -/
inductive Instr where
  /-- READ (42_bus_ops.md R187): byte offset, width in bytes. -/
  | rd (off : Word) (wb : BitVec 4)
  /-- WRITE (R188): byte offset, width in bytes, DATA. -/
  | wr (off : Word) (wb : BitVec 4) (data : Word)
  /-- RESET (R194). -/
  | rst
  /-- ISET (R196): register offset, field bit offset, field value. -/
  | iset (off : Word) (flo : BitVec 6) (data : Word)
  /-- SIZE (R195). -/
  | size
  /-- MALFORMED (R197), with the header it reports. -/
  | malformed (h : BitVec 16)
  deriving DecidableEq, Repr

end Sys2Proof
end

