-- ==== Sys2Proof/WellFormed.lean ====
section
/-! DEFINITION. When an operation is one that a request of a bank with a given ADDR_BITS can encode
(30_encoding.md R91, R97, R101). -/

namespace Sys2Proof

/-- An OFFSET operand has ADDR_BITS bits (30_encoding.md R97). -/
def offsetFits (addrBits : Nat) (off : Word) : Bool := decide (off.toNat < 2 ^ addrBits)

/-- A header outside the five operations: a reserved bit is set, or OP is 0b101, 0b110 or 0b111
(30_encoding.md R93, R96, R101). -/
def headerMalformed (h : BitVec 16) : Bool :=
  decide (h &&& 0xC080#16 ≠ 0#16) || decide (5 ≤ (h &&& 0x0007#16).toNat)

/-- The operands fit their fields of the record; a MALFORMED request has a header that is none of the operations. -/
def Instr.wellFormed (addrBits : Nat) : Instr → Bool
  | .rd off _ => offsetFits addrBits off
  | .wr off _ _ => offsetFits addrBits off
  | .rst => true
  | .iset off _ _ => offsetFits addrBits off
  | .size => true
  | .malformed h => headerMalformed h

end Sys2Proof
end

