-- ==== Sys2Proof/Decode.lean ====
section
/-! DEFINITION. Decoding a request record, total (30_encoding.md R101), and after it the encoder; then the record as
one number, bit 0 the least significant bit of H (opcode_table.json, log entry 6). -/

namespace Sys2Proof

/-! ### The header's fields (30_encoding.md R92) -/

/-- OP = H[2:0]. -/
def headerOp (h : BitVec 16) : BitVec 3 := h.extractLsb' 0 3
/-- WB = H[6:3]. -/
def headerWb (h : BitVec 16) : BitVec 4 := h.extractLsb' 3 4
/-- RSV0 = H[7]. -/
def headerRsv0 (h : BitVec 16) : BitVec 1 := h.extractLsb' 7 1
/-- FLO = H[13:8]. -/
def headerFlo (h : BitVec 16) : BitVec 6 := h.extractLsb' 8 6
/-- RSV1 = H[15:14]. -/
def headerRsv1 (h : BitVec 16) : BitVec 2 := h.extractLsb' 14 2

/-- The OFFSET operand: the ADDR_BITS low bits (30_encoding.md R91, R97). -/
def offsetOperand (addrBits : Nat) (off : Word) : Word := BitVec.ofNat 64 (off.toNat % 2 ^ addrBits)

/-- The operation a record stands for (30_encoding.md R101): reserved bits first (R96), then OP (R93). -/
def decode (addrBits : Nat) (q : Record) : Instr :=
  if headerRsv0 q.h ≠ 0 ∨ headerRsv1 q.h ≠ 0 then .malformed q.h
  else match (headerOp q.h).toNat with
    | 0 => .rd (offsetOperand addrBits q.offset) (headerWb q.h)
    | 1 => .wr (offsetOperand addrBits q.offset) (headerWb q.h) q.data
    | 2 => .rst
    | 3 => .iset (offsetOperand addrBits q.offset) (headerFlo q.h) q.data
    | 4 => .size
    | _ => .malformed q.h

/-! ### The encoder -/

/-- H from OP, WB and FLO, the reserved bits 0 (30_encoding.md R92). -/
def encodeHeader (op : BitVec 3) (wb : BitVec 4) (flo : BitVec 6) : BitVec 16 :=
  0#2 ++ flo ++ 0#1 ++ wb ++ op

/-- The record of an operation; its don't-care fields are 0 (30_encoding.md R100, R105). -/
def encode : Instr → Record
  | .rd off wb => { h := encodeHeader 0 wb 0, offset := off, data := 0 }
  | .wr off wb data => { h := encodeHeader 1 wb 0, offset := off, data := data }
  | .rst => { h := encodeHeader 2 0 0, offset := 0, data := 0 }
  | .iset off flo data => { h := encodeHeader 3 0 flo, offset := off, data := data }
  | .size => { h := encodeHeader 4 0 0, offset := 0, data := 0 }
  | .malformed h => { h := h, offset := 0, data := 0 }

/-! ### A record as one number: H, then OFFSET, then DATA (30_encoding.md R104, opcode_table.json) -/

/-- The record whose bits are `w`. -/
def recordOfBits (addrBits w : Nat) : Record where
  h := BitVec.ofNat 16 w
  offset := BitVec.ofNat 64 (w / 2 ^ 16 % 2 ^ addrBits)
  data := BitVec.ofNat 64 (w / 2 ^ (16 + addrBits))

/-- The bits of a record: 16 + ADDR_BITS + 64 of them (30_encoding.md R91). -/
def recordBits (addrBits : Nat) (q : Record) : Nat :=
  q.h.toNat + 2 ^ 16 * (q.offset.toNat % 2 ^ addrBits) + 2 ^ (16 + addrBits) * q.data.toNat

/-- Decoding from the bits of a record. -/
def decodeBits (addrBits w : Nat) : Instr := decode addrBits (recordOfBits addrBits w)

/-- The bits of an operation's record. -/
def encodeBits (addrBits : Nat) (i : Instr) : Nat := recordBits addrBits (encode i)

/-- The operation that a row's word stands for, the bits above `nbits` being 0; ADDR_BITS is the reset bank's. The
decoder is total, so it always answers. -/
def decodeTableWord (nbits w : Nat) : Option Instr := some (decodeBits Config.ex.addrBits (w % 2 ^ nbits))

end Sys2Proof
end

