-- ==== Sys2Proof/Machine/Bits.lean ====
section
/-! DEFINITION. The bit-vector notation of 00_scope.md R9 and R10 on 64-bit words. -/

namespace Sys2Proof.Machine

/-- `mask(n)`: n ones (00_scope.md R10). -/
def mask (n : Nat) : Word := BitVec.ofNat 64 (2 ^ n - 1)

/-- `v[lo+width-1 : lo]`, as an unsigned value (00_scope.md R9). -/
def slice (v : Word) (lo width : Nat) : Word := (v >>> lo) &&& mask width

/-- `trunc_n(v)` (00_scope.md R10). -/
def trunc (n : Nat) (v : Word) : Word := v &&& mask n

end Sys2Proof.Machine
end

