-- ==== Sys2Proof/Machine/Callback.lean ====
section
/-! DEFINITION. Views and callbacks (40_field_ops.md R138, R145; 10_state.md R41): what a callback's program makes of
the view it receives (log entries 3 and 16). -/

namespace Sys2Proof.Machine

/-- One component of a view: a storage field's place, width and value (10_state.md R41). -/
structure ViewCell where
  lo    : Nat
  width : Nat
  value : Word
  deriving DecidableEq, Repr

/-- `View r`: the values of one register's storage fields, in ascending `lo` (10_state.md R41). -/
abbrev View := List ViewCell

/-- The view's component for the field at `lo` (0 where the view has none). -/
def viewValue (lo : Nat) : View → Word
  | [] => 0
  | c :: cs => if c.lo = lo then c.value else viewValue lo cs

/-- The view with the component at `lo` assigned. The component keeps its width "by its type" (40_field_ops.md R142),
so the value is truncated to it; a view without that component does not change. -/
def viewAssign (lo : Nat) (v : Word) (u : View) : View :=
  u.map fun c => if c.lo = lo then { c with value := trunc c.width v } else c

/-- A truth value as a word. -/
def wordOfBool (b : Bool) : Word := if b then 1 else 0

/-- The operators on 64-bit words (00_scope.md R10; shifts by 64 or more give 0, "bits shifted out are lost"). -/
def evalBinOp (op : BinOp) (a b : Word) : Word :=
  match op with
  | .and => a &&& b
  | .or => a ||| b
  | .xor => a ^^^ b
  | .add => a + b
  | .sub => a - b
  | .shl => if b.toNat < 64 then a <<< b.toNat else 0
  | .shr => if b.toNat < 64 then a >>> b.toNat else 0
  | .eq => wordOfBool (decide (a = b))
  | .lt => wordOfBool (decide (a.toNat < b.toNat))

/-- The value of an expression for the callback's arguments and view. -/
def evalExpr (old new : Word) (u : View) : Expr → Word
  | .const v => v
  | .old => old
  | .new => new
  | .field lo => viewValue lo u
  | .not e => ~~~ (evalExpr old new u e)
  | .bin op a b => evalBinOp op (evalExpr old new u a) (evalExpr old new u b)
  | .ite c t e => if evalExpr old new u c ≠ 0 then evalExpr old new u t else evalExpr old new u e

/-- `wcb(old, new, view)`, the view the callback leaves behind (40_field_ops.md R138); `rcb(x, view)` is
`runProgram x x view` (R145). -/
def runProgram (old new : Word) : Program → View → View
  | .skip, u => u
  | .assign lo e, u => viewAssign lo (evalExpr old new u e) u
  | .seq p q, u => runProgram old new q (runProgram old new p u)
  | .ite c p q, u => if evalExpr old new u c ≠ 0 then runProgram old new p u else runProgram old new q u

/-- The bit offsets a callback's program may assign. -/
def programAssigns : Program → List Nat
  | .skip => []
  | .assign lo _ => [lo]
  | .seq p q => programAssigns p ++ programAssigns q
  | .ite _ p q => programAssigns p ++ programAssigns q

end Sys2Proof.Machine
end

