-- ==== Sys2Proof/Machine/Store.lean ====
section
/-! DEFINITION. The map `val` of 10_state.md R30 as plain data: one entry for every storage field, in strictly rising
order of register offset, then bit offset (log entries 11 and 12). -/

namespace Sys2Proof.Machine

/-- One stored value: `val[reg][f]` for the field of register `reg` at bit offset `lo` (10_state.md R29: `lo`
identifies a field within its register). -/
structure Cell where
  reg   : Nat
  lo    : Nat
  value : Word
  deriving DecidableEq, Repr

/-- The stored values of a bank (10_state.md R30). -/
abbrev Store := List Cell

/-- The order of the entries: by register offset, then by bit offset. -/
def keyLt (a b : Nat × Nat) : Bool := decide (a.1 < b.1) || (decide (a.1 = b.1) && decide (a.2 < b.2))

/-- The key of an entry. -/
def Cell.key (c : Cell) : Nat × Nat := (c.reg, c.lo)

/-- `val[reg][lo]` (00_scope.md R11). A key that is not stored answers 0: no operation asks for one in a state that
meets the invariant (log entry 11). -/
def Store.val (reg lo : Nat) : Store → Word
  | [] => 0
  | c :: cs => if c.key = (reg, lo) then c.value else Store.val reg lo cs

/-- `val[reg][lo] <- v` (00_scope.md R11), keeping the entries in order. -/
def Store.put (reg lo : Nat) (v : Word) : Store → Store
  | [] => [⟨reg, lo, v⟩]
  | c :: cs =>
    if c.key = (reg, lo) then ⟨reg, lo, v⟩ :: cs
    else if keyLt (reg, lo) c.key then ⟨reg, lo, v⟩ :: c :: cs
    else c :: Store.put reg lo v cs

/-- The canonical form: the keys rise strictly, so that no field is listed twice and equal maps are equal lists. -/
def Store.wf : Store → Bool
  | [] => true
  | c :: cs => (match cs with | [] => true | d :: _ => keyLt c.key d.key) && Store.wf cs

end Sys2Proof.Machine
end

