-- ==== Sys2Proof/Machine/Construction.lean ====
section
/-! DEFINITION. Construction of a bank (43_construction.md): gap filling and sorting of each register's fields, the
checks CE1..CE15, and the stored values a bank starts with. -/

namespace Sys2Proof.Machine

/-! ### Fields of a register -/

/-- A storage field has a stored value (10_state.md R24, R30). -/
def storageKind : Kind → Bool
  | .flag => true
  | .unsignedRange => true
  | .enum => true
  | .reserved => false
  | .tagged => false

/-- W, the register width in bits (00_scope.md R7). -/
def schemaWidth (sch : Schema) : Nat := 8 * sch.native

/-- The implicit Reserved field of a gap (43_construction.md R231): no name and no callbacks; its mode has no effect
(10_state.md R26). -/
def gapField (lo width : Nat) : FieldDecl := { lo := lo, width := width, kind := .reserved, mode := .read }

/-- Fields in ascending `lo` (43_construction.md R233). -/
def sortFields (fs : List FieldDecl) : List FieldDecl := fs.insertionSort (fun a b => a.lo ≤ b.lo)

/-- The implicit fields of the maximal runs of bits, from bit `at_` on and below W, that no field of the list covers; the
list is in ascending `lo` and its fields have bits (43_construction.md R231). -/
def gapsFrom (W : Nat) : Nat → List FieldDecl → List FieldDecl
  | at_, [] => if at_ < W then [gapField at_ (W - at_)] else []
  | at_, f :: fs =>
    let rest := gapsFrom W (max at_ (f.lo + f.width)) fs
    if at_ < min f.lo W then gapField at_ (min f.lo W - at_) :: rest else rest

/-- The implicit fields of a register: one for each maximal run of bits that no declared field covers
(43_construction.md R231). A field of width 0 covers no bit, so it neither makes a run nor ends one. -/
def implicitFields (W : Nat) (fs : List FieldDecl) : List FieldDecl :=
  gapsFrom W 0 (sortFields (fs.filter fun f => decide (1 ≤ f.width)))

/-- `fields(r)`: the declared and the implicit fields of a register, sorted (10_state.md R29; 43_construction.md R231,
R233), the order of every per-field loop (40_field_ops.md R137). -/
def layout (W : Nat) (d : RegDecl) : List FieldDecl := sortFields (d.fields ++ implicitFields W d.fields)

/-- The storage fields of a register, in ascending `lo`. -/
def storageFields (W : Nat) (d : RegDecl) : List FieldDecl := (layout W d).filter (fun f => storageKind f.kind)

/-- The registers in ascending offset (42_bus_ops.md R194). -/
def sortRegs (rs : List RegDecl) : List RegDecl := rs.insertionSort (fun a b => a.offset ≤ b.offset)

/-! ### The construction checks (43_construction.md R221) -/

/-- The codes of the construction checks. -/
inductive Check where
  | fieldOverlap
  | fieldExceedsWidth
  | resetInvalidEnum
  | fieldWidthZero
  | flagWidth
  | enumSetInvalid
  | clampDefaultInvalid
  | w1cKind
  | registerOffset
  | duplicateOffset
  | widthSet
  | sizeInvalid
  | callbackOnNonStorage
  | resetReservedNonzero
  | addrBits
  deriving DecidableEq, Repr

/-- All checks, CE1 first. -/
def allChecks : List Check :=
  [.fieldOverlap, .fieldExceedsWidth, .resetInvalidEnum, .fieldWidthZero, .flagWidth, .enumSetInvalid,
   .clampDefaultInvalid, .w1cKind, .registerOffset, .duplicateOffset, .widthSet, .sizeInvalid,
   .callbackOnNonStorage, .resetReservedNonzero, .addrBits]

/-- The bit ranges `[lo, lo+width)` of two fields intersect (43_construction.md R222). -/
def fieldsOverlap (a b : FieldDecl) : Bool :=
  decide (max a.lo b.lo < min (a.lo + a.width) (b.lo + b.width))

/-- No two members of the list, at different places, are related. -/
def noPair {α : Type} (rel : α → α → Bool) : List α → Bool
  | [] => true
  | a :: as => as.all (fun b => !rel a b) && noPair rel as

/-- Every declared field of every register passes a test (given its register). -/
def allFields (sch : Schema) (p : RegDecl → FieldDecl → Bool) : Bool :=
  sch.regs.all fun d => d.fields.all (p d)

/-- The reset slice of a field, `reset[hi:lo]` (10_state.md R38). -/
def resetSlice (d : RegDecl) (f : FieldDecl) : Word := slice d.reset f.lo f.width

/-- Does the check hold of the schema (43_construction.md R221)? DESIGN CHOICE (safe), log entry 17, wherever a check
reads what the spec gives a schema only if another check holds; the other check fails there, so no schema becomes a bank
by it:
- CE3, and CE14 of a declared field, where the field fails CE2 or CE4 or N fails CE11, so that `reset[hi:lo]` lies outside
  the W-bit reset value or has no bits: the slice of the 64-bit word that holds the reset value, 0 for no bits;
- CE9 and CE12 where N = 0, which fails CE11, so that mod N is undefined: x mod 0 is x;
- CE14 where CE1 or CE2 fails, so that R231 gives no implicit fields: those of the maximal runs that no declared field
  covers, as R231 makes them where CE1 and CE2 hold. -/
def checkHolds (sch : Schema) : Check → Bool
  | .fieldOverlap => sch.regs.all fun d => noPair fieldsOverlap d.fields
  | .fieldExceedsWidth => allFields sch fun _ f => decide (f.lo + f.width ≤ schemaWidth sch)
  | .resetInvalidEnum => allFields sch fun d f =>
      !decide (f.kind = .enum) || decide ((resetSlice d f).toNat ∈ f.valid)
  | .fieldWidthZero => allFields sch fun _ f => decide (1 ≤ f.width)
  | .flagWidth => allFields sch fun _ f => !decide (f.kind = .flag) || decide (f.width = 1)
  | .enumSetInvalid => allFields sch fun _ f =>
      !decide (f.kind = .enum) || (!f.valid.isEmpty && f.valid.all fun v => decide (v < 2 ^ f.width))
  | .clampDefaultInvalid => allFields sch fun _ f =>
      !decide (f.kind = .enum) || (match f.policy with | .clamp d => decide (d ∈ f.valid) | _ => true)
  | .w1cKind => allFields sch fun _ f =>
      !(decide (f.mode = .writeOneToClear) && decide (f.kind = .enum))
  | .registerOffset => sch.regs.all fun d =>
      decide (d.offset % sch.native = 0) && decide (d.offset + sch.native ≤ sch.size)
  | .duplicateOffset => noPair (fun a b => decide (a.offset = b.offset)) sch.regs
  | .widthSet =>
      decide (sch.native ∈ [1, 2, 4, 8]) && sch.permitted.all (fun w => decide (w ∈ [1, 2, 4, 8])) &&
      sch.permitted.all (fun w => decide (w ≤ sch.native)) && decide (sch.native ∈ sch.permitted)
  | .sizeInvalid =>
      decide (0 < sch.size) && decide (sch.size % sch.native = 0) && decide (sch.size ≤ 2 ^ sch.addrBits)
  | .callbackOnNonStorage => allFields sch fun _ f =>
      storageKind f.kind || (f.wcb.isNone && f.rcb.isNone)
  | .resetReservedNonzero => sch.regs.all fun d =>
      (layout (schemaWidth sch) d).all fun f => storageKind f.kind || decide (resetSlice d f = 0)
  | .addrBits => decide (1 ≤ sch.addrBits) && decide (sch.addrBits ≤ 64)

/-- The checks that fail (43_construction.md R221; none is reported first, R223); CE3, CE9, CE12 and CE14 beside CE1, CE2,
CE4 or CE11 as log entry 17 says. -/
def failedChecks (sch : Schema) : List Check := allChecks.filter fun c => !checkHolds sch c

/-- The schema is well-formed: the conjunction of the checks (43_construction.md R221, R223). -/
def schemaWellFormed (sch : Schema) : Bool := allChecks.all (checkHolds sch)

/-! ### The values a bank starts with -/

/-- RegReset: every storage field of the register to its reset slice (41_register_ops.md R166). -/
def regReset (d : RegDecl) : List FieldDecl → Store → Store
  | [], vals => vals
  | f :: fs, vals => regReset d fs (vals.put d.offset f.lo (resetSlice d f))

/-- RegReset for each register of the list (42_bus_ops.md R194). -/
def resetRegs (W : Nat) : List RegDecl → Store → Store
  | [], vals => vals
  | d :: ds, vals => resetRegs W ds (regReset d (storageFields W d) vals)

/-- The stored values of a newly constructed bank: the reset state (70_reset_and_hazards.md R281). -/
def powerOnVals (sch : Schema) : Store := resetRegs (schemaWidth sch) (sortRegs sch.regs) []

end Sys2Proof.Machine
end

