-- ==== Sys2Proof/Machine/State.lean ====
section
/-! DEFINITION. The state of the machine as plain data: the bank's schema (configuration, log entry 1), the stored
values (10_state.md R30), the requests not yet taken and the replies given (30_encoding.md R90); the refusals of
60_exceptions.md R262; and the state after reset. -/

namespace Sys2Proof.Machine

/-- A bank's configuration: "a schema paired with a proof that the predicate holds" (43_construction.md R223). No
operation changes it (10_state.md R21). -/
structure Bank where
  schema : Schema
  ok     : schemaWellFormed schema = true
  deriving DecidableEq, Repr

/-- The direction of a bus access (60_exceptions.md R250). -/
inductive Dir where
  | read
  | write
  deriving DecidableEq, Repr

/-- The access-class diagnostics (60_exceptions.md R251, codes 1 to 4). -/
inductive AccessAnomaly where
  | illegalWidth
  | misaligned
  | outOfRange
  | unmapped
  deriving DecidableEq, Repr

/-- The field-class diagnostics (60_exceptions.md R251, codes 5 to 9). -/
inductive FieldAnomaly where
  | reservedWrite
  | readOnlyWrite
  | taggedRead
  | taggedWrite
  | invalidEnum
  deriving DecidableEq, Repr

/-- A diagnostic with the info of its class (60_exceptions.md R250). -/
inductive Diag where
  /-- Access class: direction, the request's OFFSET and WB. -/
  | access (code : AccessAnomaly) (dir : Dir) (off : Word) (wb : BitVec 4)
  /-- Field class: register offset, field bit offset, value. -/
  | field (code : FieldAnomaly) (reg lo : Nat) (value : Word)
  /-- Request class, MalformedRequest (code 10): the header. -/
  | malformedRequest (h : BitVec 16)
  deriving DecidableEq, Repr

/-- An output event (60_exceptions.md R250, 40_field_ops.md R140). -/
inductive Event where
  | diag (d : Diag)
  /-- `Cb(Write, r, lo, old, new)`. -/
  | cbWrite (reg lo : Nat) (old new : Word)
  /-- `Cb(Read, r, lo, x, x)`. -/
  | cbRead (reg lo : Nat) (x : Word)
  deriving DecidableEq, Repr

/-- The answer to one request: the response RDATA and the ordered output events (30_encoding.md R90, R99). -/
structure Reply where
  rdata  : Word
  events : List Event
  deriving DecidableEq, Repr

/-- The state. `vals` is the block's state (10_state.md R30); `bank` is its configuration; `stream` (the MODEL's own
field, log entry 4) and `replies` (the block's outputs, log entry 7) are its interface. -/
structure State where
  /-- The schema; fixed for the bank's lifetime (10_state.md R21). -/
  bank    : Bank
  /-- `val[r][f]` for every storage field (10_state.md R30). -/
  vals    : Store
  /-- Requests not yet taken, the next one first (30_encoding.md R90). -/
  stream  : List Record
  /-- Replies given, the oldest first (30_encoding.md R90). -/
  replies : List Reply
  deriving DecidableEq, Repr

/-- The reasons a machine stops with a fault: none. The block raises no exception and "never stops and never blocks"
(60_exceptions.md R252, R255), so no constructor exists (log entry 10; safe). -/
inductive Fault where
  deriving DecidableEq, Repr

/-- The reasons the model gives a step no meaning (60_exceptions.md R262); all safe (the model only has fewer runs). -/
inductive Refusal where
  /-- An arm of exec without a meaning; none is left. Safe. -/
  | notModelled (mnemonic : String)
  /-- A callback's returned view changes a ReadOnlyConstant field: raised by ApplyView (40_field_ops.md R142) in READ
  and WRITE. Safe. -/
  | callbackChangesConstant
  /-- ISET to an offset with no declared register (40_field_ops.md R150). Safe. -/
  | isetNoRegister
  /-- ISET whose FLO names no field start (R150). Safe. -/
  | isetNoField
  /-- ISET to a Reserved or Tagged field (R150). Safe. -/
  | isetNonStorage
  /-- ISET to a ReadOnlyConstant field (R150). Safe. -/
  | isetConstant
  /-- ISET of a value that does not fit the field (R150). Safe. -/
  | isetValueTooWide
  deriving DecidableEq, Repr

/-- The bank right after construction: the reset values, no request, no reply (70_reset_and_hazards.md R281). -/
def State.ofBank (b : Bank) : State where
  bank := b
  vals := powerOnVals b.schema
  stream := []
  replies := []

/-- The example bank EX passes every check (95_test_vectors.md V-CE16). -/
def exBank : Bank := ⟨Config.ex, by decide⟩

/-- The machine right after reset: the spec's example bank EX in its reset state S0 (95_test_vectors.md section 3.1).
DESIGN CHOICE: which bank this is (log entry 2); every statement is about every bank. -/
def State.reset : State := State.ofBank exBank

end Sys2Proof.Machine
end

