-- ==== Sys2Proof/Machine/Flags.lean ====
section
/-! DEFINITION. What a register write makes of one field's value: every kind, mode and enum policy
(40_field_ops.md R122..R133). The block's flags are its Flag fields (10_state.md R40), the one-bit case. -/

namespace Sys2Proof.Machine

/-- What FieldWrite does before any callback: at most one diagnostic, and the value it commits, if any. -/
structure FieldEffect where
  diag   : Option (FieldAnomaly × Word)
  stored : Option Word
  deriving DecidableEq, Repr

/-- The candidate of a field of a mode other than WriteOneToClear: the incoming bits inside the lane, the stored bits
outside it (40_field_ops.md R122). -/
def mergedCandidate (o vin fm : Word) : Word := (vin &&& fm) ||| (o &&& ~~~ fm)

/-- The value stored for an Enum candidate outside V (40_field_ops.md R130). -/
def policyValue (p : Policy) (o c : Word) : Word :=
  match p with
  | .reject => o
  | .clamp d => BitVec.ofNat 64 d
  | .acceptVerbatim => c

/-- The write of one field with stored value `o`, incoming bits `vin` and lane bits `fm` (40_field_ops.md R123):
Reserved (R132), Tagged (R133), read-only modes (R127), WriteOneToClear (R131), Write and ReadWrite (R128..R130). -/
def writeEffect (f : FieldDecl) (o vin fm : Word) : FieldEffect :=
  match f.kind with
  | .reserved => ⟨some (.reservedWrite, vin &&& fm), none⟩
  | .tagged => ⟨some (.taggedWrite, vin &&& fm), none⟩
  | .flag | .unsignedRange | .enum =>
    match f.mode with
    | .read | .readOnlyConstant => ⟨some (.readOnlyWrite, mergedCandidate o vin fm), none⟩
    | .writeOneToClear => ⟨none, some (o &&& ~~~ (vin &&& fm))⟩
    | .write | .readWrite =>
      if f.kind = .enum ∧ (mergedCandidate o vin fm).toNat ∉ f.valid then
        ⟨some (.invalidEnum, mergedCandidate o vin fm), some (policyValue f.policy o (mergedCandidate o vin fm))⟩
      else ⟨none, some (mergedCandidate o vin fm)⟩

end Sys2Proof.Machine
end

