-- ==== Sys2Proof/Machine/Operands.lean ====
section
/-! DEFINITION. The operands of a bus access: the AccessTranslator (42_bus_ops.md R180, R181), the access checks
(R182..R186), and the placement of narrow data (R192, R193). -/

namespace Sys2Proof.Machine

/-- The start of the native slot that holds an offset (20_memory.md R61). -/
def slotBase (sch : Schema) (off : Nat) : Nat := off - off % sch.native

/-- `k = off mod N`, the lane offset in bytes (42_bus_ops.md R181). -/
def laneOffset (sch : Schema) (off : Nat) : Nat := off % sch.native

/-- The lane mask `M = mask(8*w) << (8*k)` (42_bus_ops.md R181). -/
def laneMask (sch : Schema) (off w : Nat) : Word := mask (8 * w) <<< (8 * laneOffset sch off)

/-- `Legal(w)` (42_bus_ops.md R180). -/
def legalWidth (sch : Schema) (w : Nat) : Bool := decide (w ∈ sch.permitted)

/-- The register declared at an offset (42_bus_ops.md R184). -/
def findReg (sch : Schema) (off : Nat) : Option RegDecl := sch.regs.find? fun d => decide (d.offset = off)

/-- `AccessCheck(off, w)`: the checks in their order, the first that fails is answered, else the register reached
(42_bus_ops.md R186, R184). `off + w` is a sum of naturals: it does not wrap (20_memory.md R63). -/
def accessCheck (sch : Schema) (off w : Nat) : Except AccessAnomaly RegDecl :=
  if legalWidth sch w = false then .error .illegalWidth
  else if off % w ≠ 0 then .error .misaligned
  else if sch.size < off + w then .error .outOfRange
  else match findReg sch (slotBase sch off) with
    | none => .error .unmapped
    | some d => .ok d

/-- The incoming value of a write, placed at the lane (42_bus_ops.md R192). -/
def placeWriteData (sch : Schema) (off w : Nat) (data : Word) : Word :=
  trunc (8 * w) data <<< (8 * laneOffset sch off)

/-- The lane of a read value, zero-extended (42_bus_ops.md R187, R193). -/
def extractLane (sch : Schema) (off w : Nat) (R : Word) : Word := slice R (8 * laneOffset sch off) (8 * w)

end Sys2Proof.Machine
end

