-- ==== Sys2Proof/Machine/Ops.lean ====
section
/-! DEFINITION. The shared operations of the bank: packing, callbacks and ApplyView, FieldWrite, RegRead, RegWrite,
ISet, the absorbing of an anomaly, the reply, and taking the next request. -/

namespace Sys2Proof.Machine

/-- An operation in progress: the stored values and the events emitted so far. It lives inside one indivisible step
(20_memory.md R70) and is no state of the block. -/
structure Ctx where
  vals   : Store
  events : List Event
  deriving DecidableEq, Repr

/-- `emit` (00_scope.md R11): append to the output trace. -/
def Ctx.emit (c : Ctx) (e : Event) : Ctx := { c with events := c.events ++ [e] }

/-! ### Diagnostics (60_exceptions.md R251) -/

/-- The numeric code of a diagnostic. -/
def diagCode : Diag → Nat
  | .access .illegalWidth _ _ _ => 1
  | .access .misaligned _ _ _ => 2
  | .access .outOfRange _ _ _ => 3
  | .access .unmapped _ _ _ => 4
  | .field .reservedWrite _ _ _ => 5
  | .field .readOnlyWrite _ _ _ => 6
  | .field .taggedRead _ _ _ => 7
  | .field .taggedWrite _ _ _ => 8
  | .field .invalidEnum _ _ _ => 9
  | .malformedRequest _ => 10

/-! ### Packing (40_field_ops.md R120, R121) -/

/-- The fields whose stored value a register read shows: storage fields of every mode but Write. -/
def readableField (f : FieldDecl) : Bool := storageKind f.kind && decide (f.mode ≠ .write)

/-- `PackField(r, f)`. -/
def packField (reg : Nat) (vals : Store) (f : FieldDecl) : Word :=
  if readableField f then vals.val reg f.lo <<< f.lo else 0

/-- `Pack(r)`: the OR of the fields' contributions. -/
def pack (reg : Nat) (vals : Store) : List FieldDecl → Word
  | [] => 0
  | f :: fs => packField reg vals f ||| pack reg vals fs

/-! ### Callbacks (40_field_ops.md R135..R146) -/

/-- `view(r)`: the register's storage fields with their values (10_state.md R41). -/
def viewOf (reg : Nat) (vals : Store) (storage : List FieldDecl) : View :=
  storage.map fun f => ⟨f.lo, f.width, vals.val reg f.lo⟩

/-- `ApplyView(r, u)` over the register's storage fields in ascending `lo` (40_field_ops.md R142): a changed component
is stored verbatim; a change to a ReadOnlyConstant field is refused. -/
def applyView (reg : Nat) (u : View) : List FieldDecl → Store → Except Refusal Store
  | [], vals => .ok vals
  | g :: gs, vals =>
    if viewValue g.lo u = vals.val reg g.lo then applyView reg u gs vals
    else if g.mode = .readOnlyConstant then .error .callbackChangesConstant
    else applyView reg u gs (vals.put reg g.lo (viewValue g.lo u))

/-- Run a callback of a register on its view and apply what it leaves behind (40_field_ops.md R138, R142). -/
def runCallback (reg : Nat) (storage : List FieldDecl) (p : Program) (old new : Word) (vals : Store) :
    Except Refusal Store :=
  applyView reg (runProgram old new p (viewOf reg vals storage)) storage vals

/-- The write callback of a field, if it has one: the event first, then the callback (40_field_ops.md R135, R140). -/
def fireWcb (reg : Nat) (storage : List FieldDecl) (f : FieldDecl) (o n : Word) (c : Ctx) : Except Refusal Ctx :=
  match f.wcb with
  | none => .ok c
  | some p =>
    match runCallback reg storage p o n c.vals with
    | .ok vals => .ok ⟨vals, c.events ++ [.cbWrite reg f.lo o n]⟩
    | .error e => .error e

/-- The read callback of a field, if it has one (40_field_ops.md R140, R145). -/
def fireRcb (reg : Nat) (storage : List FieldDecl) (f : FieldDecl) (c : Ctx) : Except Refusal Ctx :=
  match f.rcb with
  | none => .ok c
  | some p =>
    match runCallback reg storage p (c.vals.val reg f.lo) (c.vals.val reg f.lo) c.vals with
    | .ok vals => .ok ⟨vals, c.events ++ [.cbRead reg f.lo (c.vals.val reg f.lo)]⟩
    | .error e => .error e

/-! ### Register operations (41_register_ops.md) -/

/-- The diagnostic of a field's write effect, as an event. -/
def effectEvents (reg : Nat) (f : FieldDecl) (e : FieldEffect) : List Event :=
  match e.diag with
  | none => []
  | some (code, v) => [.diag (.field code reg f.lo v)]

/-- The effect of a write with incoming value `v` and lane mask `M` on a field, from its stored value
(40_field_ops.md R122, R124). -/
def fieldEffect (reg : Nat) (vals : Store) (f : FieldDecl) (v M : Word) : FieldEffect :=
  writeEffect f (vals.val reg f.lo) (slice v f.lo f.width) (slice M f.lo f.width)

/-- `FieldWrite(r, f, v, M)` (40_field_ops.md R123): the diagnostic, then the commit (R125), then the callback. A
field whose effect commits nothing runs no callback (R136). -/
def fieldWrite (reg : Nat) (storage : List FieldDecl) (f : FieldDecl) (v M : Word) (c : Ctx) : Except Refusal Ctx :=
  match (fieldEffect reg c.vals f v M).stored with
  | none => .ok ⟨c.vals, c.events ++ effectEvents reg f (fieldEffect reg c.vals f v M)⟩
  | some n =>
    fireWcb reg storage f (c.vals.val reg f.lo) n
      ⟨c.vals.put reg f.lo n, c.events ++ effectEvents reg f (fieldEffect reg c.vals f v M)⟩

/-- A field is processed when a bit of it lies in the lane (41_register_ops.md R163). -/
def processed (M : Word) (f : FieldDecl) : Bool := decide (slice M f.lo f.width ≠ 0)

/-- The loop of `RegWrite` over the fields in ascending `lo` (41_register_ops.md R162). -/
def writeFields (reg : Nat) (storage : List FieldDecl) (v M : Word) : List FieldDecl → Ctx → Except Refusal Ctx
  | [], c => .ok c
  | f :: fs, c =>
    if processed M f then
      match fieldWrite reg storage f v M c with
      | .ok c' => writeFields reg storage v M fs c'
      | .error e => .error e
    else writeFields reg storage v M fs c

/-- `RegWrite(r, v, M)` (41_register_ops.md R162). -/
def regWrite (sch : Schema) (d : RegDecl) (v M : Word) (vals : Store) : Except Refusal Ctx :=
  writeFields d.offset (storageFields (schemaWidth sch) d) v M (layout (schemaWidth sch) d) ⟨vals, []⟩

/-- The TaggedRead of a field, if it is Tagged (40_field_ops.md R134). -/
def taggedEvents (reg : Nat) (f : FieldDecl) : List Event :=
  if f.kind = .tagged then [.diag (.field .taggedRead reg f.lo 0)] else []

/-- The loop of `RegRead` over the fields in ascending `lo` (41_register_ops.md R160). -/
def readFields (reg : Nat) (storage : List FieldDecl) : List FieldDecl → Ctx → Except Refusal Ctx
  | [], c => .ok c
  | f :: fs, c =>
    match fireRcb reg storage f ⟨c.vals, c.events ++ taggedEvents reg f⟩ with
    | .ok c' => readFields reg storage fs c'
    | .error e => .error e

/-- The value a read returns, packed before or after the callbacks (41_register_ops.md R160, READ_PACK_ORDER). -/
def packedValue (sch : Schema) (d : RegDecl) (before after : Store) : Word :=
  match sch.packOrder with
  | .callbacksFirst => pack d.offset after (layout (schemaWidth sch) d)
  | .packFirst => pack d.offset before (layout (schemaWidth sch) d)

/-- `RegRead(r)` (41_register_ops.md R160): the packed value, and what the callbacks left. -/
def regRead (sch : Schema) (d : RegDecl) (vals : Store) : Except Refusal (Word × Ctx) :=
  match readFields d.offset (storageFields (schemaWidth sch) d) (layout (schemaWidth sch) d) ⟨vals, []⟩ with
  | .ok c => .ok (packedValue sch d vals c.vals, c)
  | .error e => .error e

/-! ### Internal assignment (40_field_ops.md R150) -/

/-- `ISet(r, lo, x)`: the refusals in their order, then the assignment. -/
def iset (sch : Schema) (r lo : Nat) (x : Word) (vals : Store) : Except Refusal Store :=
  match findReg sch r with
  | none => .error .isetNoRegister
  | some d =>
    match (layout (schemaWidth sch) d).find? (fun f => decide (f.lo = lo)) with
    | none => .error .isetNoField
    | some f =>
      if storageKind f.kind = false then .error .isetNonStorage
      else if f.mode = .readOnlyConstant then .error .isetConstant
      else if 2 ^ f.width ≤ x.toNat then .error .isetValueTooWide
      else .ok (vals.put r lo (trunc f.width x))

/-! ### Answering a request -/

/-- The state after an operation that leaves `vals` and answers `rdata` with `events` (30_encoding.md R90, R99). -/
def State.answer (s : State) (rdata : Word) (vals : Store) (events : List Event) : State :=
  { s with vals := vals, replies := s.replies ++ [⟨rdata, events⟩] }

/-- Absorb an anomaly: one diagnostic, response 0, no state change (60_exceptions.md R252; the block's only way of
handling what a processor would trap on, R255). -/
def State.absorb (s : State) (d : Diag) : State := s.answer 0 s.vals [.diag d]

/-- The outcome of a register write: response 0 (30_encoding.md R99), or the refusal of a callback. -/
def finishWrite (s : State) : Except Refusal Ctx → Host.Outcome State Fault Refusal
  | .ok c => .next (s.answer 0 c.vals c.events)
  | .error e => .refused e

/-- The outcome of a register read: the lane of the value (42_bus_ops.md R187), or the refusal of a callback. -/
def finishRead (s : State) (off w : Nat) : Except Refusal (Word × Ctx) → Host.Outcome State Fault Refusal
  | .ok (R, c) => .next (s.answer (extractLane s.bank.schema off w R) c.vals c.events)
  | .error e => .refused e

/-- The outcome of an internal assignment: response 0 and no event (40_field_ops.md R151), or a refusal. -/
def finishIset (s : State) : Except Refusal Store → Host.Outcome State Fault Refusal
  | .ok vals => .next (s.answer 0 vals [])
  | .error e => .refused e

/-- The response to SIZE (42_bus_ops.md R195). A SIZE of 2^64 does not fit the 64-bit response of 30_encoding.md R99:
the response is then a free value (log entry 8). -/
def sizeResponse (sch : Schema) (answered : Nat) : Word :=
  if sch.size < 2 ^ 64 then BitVec.ofNat 64 sch.size else Config.freeValue answered

/-! ### Taking the next request (30_encoding.md R90) -/

/-- The next request of the stream, decoded, and the state with it taken off. -/
def State.fetch (s : State) : Option (Instr × State) :=
  match s.stream with
  | [] => none
  | q :: rest => some (decode s.bank.schema.addrBits q, { s with stream := rest })

/-- With no request there is nothing to do (log entry 5). -/
def State.idle (s : State) : Host.Outcome State Fault Refusal := .next s

/-- The state with a request put in front of the stream: the next one to be taken. -/
def State.request (s : State) (q : Record) : State := { s with stream := q :: s.stream }

/-- Construction (43_construction.md R220, R235): a well-formed schema gives a bank in its reset state; any other gives
none. -/
def construct (sch : Schema) : Option State :=
  if h : schemaWellFormed sch = true then some (State.ofBank ⟨sch, h⟩) else none

end Sys2Proof.Machine
end

