-- ==== Sys2Proof/Machine/Bus.lean ====
section
/-! DEFINITION. The meanings of the bus master's operations: READ, WRITE and SIZE (42_bus_ops.md R187, R188, R195). -/

namespace Sys2Proof.Machine

/-- READ (42_bus_ops.md R187). -/
def execRd (off : Word) (wb : BitVec 4) (s : State) : Host.Outcome State Fault Refusal :=
  match accessCheck s.bank.schema off.toNat wb.toNat with
  | .error a => .next (s.absorb (.access a .read off wb))
  | .ok d => finishRead s off.toNat wb.toNat (regRead s.bank.schema d s.vals)

/-- WRITE (42_bus_ops.md R188). -/
def execWr (off : Word) (wb : BitVec 4) (data : Word) (s : State) : Host.Outcome State Fault Refusal :=
  match accessCheck s.bank.schema off.toNat wb.toNat with
  | .error a => .next (s.absorb (.access a .write off wb))
  | .ok d => finishWrite s (regWrite s.bank.schema d (placeWriteData s.bank.schema off.toNat wb.toNat data)
      (laneMask s.bank.schema off.toNat wb.toNat) s.vals)

/-- SIZE (42_bus_ops.md R195). -/
def execSize (s : State) : Host.Outcome State Fault Refusal :=
  .next (s.answer (sizeResponse s.bank.schema s.replies.length) s.vals [])

end Sys2Proof.Machine
end

