-- ==== Sys2Proof/Machine/Internal.lean ====
section
/-! DEFINITION. The meanings of RESET (42_bus_ops.md R194), of the peripheral logic's ISET (R196), and of a MALFORMED
request (R197). -/

namespace Sys2Proof.Machine

/-- RESET (42_bus_ops.md R194): RegReset for every register in ascending offset; no event (41_register_ops.md R167). -/
def execRst (s : State) : Host.Outcome State Fault Refusal :=
  .next (s.answer 0 (resetRegs (schemaWidth s.bank.schema) (sortRegs s.bank.schema.regs) s.vals) [])

/-- ISET (42_bus_ops.md R196, 40_field_ops.md R150): OFFSET is a register offset; no access check applies. -/
def execIset (off : Word) (flo : BitVec 6) (data : Word) (s : State) : Host.Outcome State Fault Refusal :=
  finishIset s (iset s.bank.schema off.toNat flo.toNat data s.vals)

/-- MALFORMED (42_bus_ops.md R197, 30_encoding.md R102). -/
def execMalformed (h : BitVec 16) (s : State) : Host.Outcome State Fault Refusal :=
  .next (s.absorb (.malformedRequest h))

end Sys2Proof.Machine
end

