-- ==== Sys2Proof/Machine/Dispatch.lean ====
section
/-! DEFINITION. One arm per operation of 30_encoding.md R93, and one for MALFORMED (R101). -/

namespace Sys2Proof.Machine

def exec (i : Instr) (s : State) : Host.Outcome State Fault Refusal :=
  match i with
  | .rd off wb => Sys2Proof.Machine.execRd off wb s
  | .wr off wb data => Sys2Proof.Machine.execWr off wb data s
  | .rst => Sys2Proof.Machine.execRst s
  | .iset off flo data => Sys2Proof.Machine.execIset off flo data s
  | .size => Sys2Proof.Machine.execSize s
  | .malformed h => Sys2Proof.Machine.execMalformed h s

end Sys2Proof.Machine
end

