-- ==== Sys2Proof/Machine/Step.lean ====
section
/-! DEFINITION. One step: the next request of the stream is taken, decoded and executed (30_encoding.md R90); with no
request nothing happens (log entry 5). -/

namespace Sys2Proof.Machine

/-- One request, processed as one indivisible step (20_memory.md R70). -/
def step (s : State) : Host.Outcome State Fault Refusal :=
  match s.fetch with
  | none => s.idle
  | some (i, t) => exec i t

/-- `s` with the request whose bits are `w` (the bits above `nbits` 0) next in the stream (log entries 4 and 6). -/
def State.withFetchWord (s : State) (nbits w : Nat) : State :=
  s.request (recordOfBits s.bank.schema.addrBits (w % 2 ^ nbits))

end Sys2Proof.Machine
end

