-- ==== Sys2Proof/Safety.lean ====
section
/-! DEFINITION. The terms in which claims about the machine are stated: the invariant of a bank's state, the access
that reaches a register, what a write's lane is in plain arithmetic, and what a callback leaves alone. -/

namespace Sys2Proof.Machine

/-! ### The invariant -/

/-- The keys a bank's store lists: every storage field of every register, in rising order (10_state.md R30). -/
def storageKeys (sch : Schema) : List (Nat × Nat) :=
  (sortRegs sch.regs).flatMap fun d => (storageFields (schemaWidth sch) d).map fun f => (d.offset, f.lo)

/-- `fields(r)` in the bank of a state (10_state.md R29). -/
def State.fields (s : State) (d : RegDecl) : List FieldDecl := layout (schemaWidth s.bank.schema) d

/-- The storage fields of a register in the bank of a state. -/
def State.storage (s : State) (d : RegDecl) : List FieldDecl := storageFields (schemaWidth s.bank.schema) d

/-- `val[r][f]` (00_scope.md R11). -/
def State.field (s : State) (d : RegDecl) (f : FieldDecl) : Word := s.vals.val d.offset f.lo

/-- What holds of a bank in every run: the store lists exactly the storage fields, once each and in order; a value has
its field's width (10_state.md R30); a ReadOnlyConstant field holds its reset slice (R33). -/
structure State.Inv (s : State) : Prop where
  keys : s.vals.map Cell.key = storageKeys s.bank.schema
  fits : ∀ d ∈ s.bank.schema.regs, ∀ f ∈ s.storage d, (s.field d f).toNat < 2 ^ f.width
  constant : ∀ d ∈ s.bank.schema.regs, ∀ f ∈ s.storage d, f.mode = .readOnlyConstant →
    s.field d f = resetSlice d f

/-! ### A safe run -/

/-- A run of any length never stops: the model gives every step a meaning (60_exceptions.md R252, R262). -/
def Safe (s : State) : Prop :=
  ∀ n, ∃ t, Host.Core.run ⟨State, Fault, Refusal, step, State.reset⟩ n s = .next t

/-! ### Accesses -/

/-- An access of `w` bytes at `off` passes the four checks and reaches register `d` (42_bus_ops.md R186). -/
structure Reaches (s : State) (off w : Nat) (d : RegDecl) : Prop where
  legal    : w ∈ s.bank.schema.permitted
  aligned  : off % w = 0
  inRange  : off + w ≤ s.bank.schema.size
  declared : d ∈ s.bank.schema.regs
  slot     : d.offset = off - off % s.bank.schema.native

/-- The field has a bit in the lane of `w` bytes at byte `k` of its register (41_register_ops.md R163). -/
def meetsLane (k w : Nat) (f : FieldDecl) : Bool :=
  decide (f.lo < 8 * (k + w)) && decide (8 * k < f.lo + f.width)

/-- The incoming bits of a write at a field: the low `8w` bits of DATA, placed at byte `k`, cut to the field
(40_field_ops.md R122, 42_bus_ops.md R192). -/
def incomingBits (k w : Nat) (data : Word) (f : FieldDecl) : Word :=
  BitVec.ofNat 64 (data.toNat % 2 ^ (8 * w) * 2 ^ (8 * k) / 2 ^ f.lo % 2 ^ f.width)

/-- The bits of a field that the lane touches (40_field_ops.md R122). -/
def touchedBits (k w : Nat) (f : FieldDecl) : Word :=
  BitVec.ofNat 64 ((2 ^ (8 * w) - 1) * 2 ^ (8 * k) / 2 ^ f.lo % 2 ^ f.width)

/-- The candidate of a field: incoming bits inside the lane, stored bits outside it (40_field_ops.md R122). -/
def candidateBits (k w : Nat) (data : Word) (f : FieldDecl) (o : Word) : Word :=
  incomingBits k w data f ||| (o &&& ~~~ touchedBits k w f)

/-- The value a write leaves in a storage field that no callback touches, from its stored value `o`
(40_field_ops.md R127..R131): a field outside the lane keeps it. -/
def writtenValue (k w : Nat) (data : Word) (f : FieldDecl) (o : Word) : Word :=
  if meetsLane k w f = false then o
  else match f.mode with
    | .read => o
    | .readOnlyConstant => o
    | .writeOneToClear => o &&& ~~~ incomingBits k w data f
    | .write | .readWrite =>
      if f.kind = .enum ∧ (candidateBits k w data f o).toNat ∉ f.valid then
        match f.policy with
        | .reject => o
        | .clamp v => BitVec.ofNat 64 v
        | .acceptVerbatim => candidateBits k w data f o
      else candidateBits k w data f o

/-- The diagnostic a write emits for a field in its lane, from its stored value `o` (60_exceptions.md R251, codes 5, 6,
8 and 9): at most one. -/
def writeDiagnostics (k w : Nat) (data : Word) (reg : Nat) (f : FieldDecl) (o : Word) : List Event :=
  if meetsLane k w f = false then []
  else if f.kind = .reserved then [.diag (.field .reservedWrite reg f.lo (incomingBits k w data f))]
  else if f.kind = .tagged then [.diag (.field .taggedWrite reg f.lo (incomingBits k w data f))]
  else if f.mode = .read ∨ f.mode = .readOnlyConstant then
    [.diag (.field .readOnlyWrite reg f.lo (candidateBits k w data f o))]
  else if f.mode ≠ .writeOneToClear ∧ f.kind = .enum ∧ (candidateBits k w data f o).toNat ∉ f.valid then
    [.diag (.field .invalidEnum reg f.lo (candidateBits k w data f o))]
  else []

/-! ### Callbacks -/

/-- The callback's program never changes the component at `lo` (40_field_ops.md R142, 43_construction.md R236). -/
def callbackKeeps (p : Program) (lo : Nat) : Prop :=
  ∀ old new u, viewValue lo (runProgram old new p u) = viewValue lo u

/-- The program changes no ReadOnlyConstant field of the register (40_field_ops.md R142). -/
def sparesConstants (storage : List FieldDecl) (p : Program) : Prop :=
  ∀ g ∈ storage, g.mode = .readOnlyConstant → callbackKeeps p g.lo

/-- A field on which a write that processes it runs the write callback, when it has one (40_field_ops.md R135). -/
def writableField (f : FieldDecl) : Bool :=
  storageKind f.kind && (decide (f.mode = .write) || decide (f.mode = .readWrite) || decide (f.mode = .writeOneToClear))

/-- The event without the values it carries: its kind and its field. -/
def eventSite : Event → Event
  | .diag (.field code reg lo _) => .diag (.field code reg lo 0)
  | .cbWrite reg lo _ _ => .cbWrite reg lo 0 0
  | .cbRead reg lo _ => .cbRead reg lo 0
  | .diag (.access code dir off wb) => .diag (.access code dir off wb)
  | .diag (.malformedRequest h) => .diag (.malformedRequest h)

/-- The event records a callback's invocation (40_field_ops.md R140). -/
def isCallbackEvent : Event → Bool
  | .diag _ => false
  | .cbWrite _ _ _ _ => true
  | .cbRead _ _ _ => true

/-- The register offset and field bit offset an event is about, if it is about a field. -/
def eventField : Event → Option (Nat × Nat)
  | .diag (.field _ reg lo _) => some (reg, lo)
  | .diag (.access _ _ _ _) => none
  | .diag (.malformedRequest _) => none
  | .cbWrite reg lo _ _ => some (reg, lo)
  | .cbRead reg lo _ => some (reg, lo)

/-- The places and widths of a view's components. -/
def viewShape (u : View) : List (Nat × Nat) := u.map fun c => (c.lo, c.width)

/-- The view of a register with these storage fields whose component at each bit offset is given (10_state.md R41). -/
def viewWith (storage : List FieldDecl) (val : Nat → Word) : View := storage.map fun g => ⟨g.lo, g.width, val g.lo⟩

/-- A view of a register with storage fields at these places and widths: its components' values have their widths
(10_state.md R41). -/
def viewFits (shape : List (Nat × Nat)) (u : View) : Prop :=
  viewShape u = shape ∧ ∀ c ∈ u, c.value.toNat < 2 ^ c.width

end Sys2Proof.Machine
end

