-- ==== Sys2Proof/Certificates/Slice0/Obligations.lean ====
section
/-! DEFINITION. The statements about the machine, from the numbered rules of spec/. -/

open Sys2Proof Sys2Proof.Machine

/-! ### Decoding and encoding -/

/-- Decode and encode agree on the bits of the whole record, for every operand the encoding admits
(30_encoding.md R91..R101). The order of the record's fields as one number is the model's choice: log entry 6. -/
def Obligations.EncodedRequestDecodesBack : Prop :=
  ∀ (ab : Nat) (i : Instr), 1 ≤ ab → ab ≤ 64 → i.wellFormed ab = true → decodeBits ab (encodeBits ab i) = i

/-- Every record decodes to an operation that a record can encode, or to MALFORMED with a header that is none of the
five (30_encoding.md R97, R101). -/
def Obligations.EveryRecordDecodesToAWellFormedOperation : Prop :=
  ∀ (ab : Nat) (q : Record), 1 ≤ ab → ab ≤ 64 → (decode ab q).wellFormed ab = true

/-- A set reserved header bit makes the request malformed, whatever OP is (30_encoding.md R96, the spec's
decision D26). -/
def Obligations.ReservedHeaderBitMakesRequestMalformed : Prop :=
  ∀ (ab : Nat) (q : Record), q.h.toNat / 2 ^ 7 % 2 ≠ 0 ∨ q.h.toNat / 2 ^ 14 ≠ 0 → decode ab q = .malformed q.h

/-- OP selects the operation, whose operands are the header's WB and FLO, OFFSET and DATA (30_encoding.md R93, R101; the
codes are the spec's decision D2). -/
def Obligations.OpSelectsTheOperation : Prop :=
  ∀ (ab : Nat) (q : Record), q.h.toNat / 2 ^ 7 % 2 = 0 → q.h.toNat / 2 ^ 14 = 0 →
    (q.h.toNat % 8 = 0 → decode ab q =
      .rd (BitVec.ofNat 64 (q.offset.toNat % 2 ^ ab)) (BitVec.ofNat 4 (q.h.toNat / 2 ^ 3))) ∧
    (q.h.toNat % 8 = 1 → decode ab q =
      .wr (BitVec.ofNat 64 (q.offset.toNat % 2 ^ ab)) (BitVec.ofNat 4 (q.h.toNat / 2 ^ 3)) q.data) ∧
    (q.h.toNat % 8 = 2 → decode ab q = .rst) ∧
    (q.h.toNat % 8 = 3 → decode ab q =
      .iset (BitVec.ofNat 64 (q.offset.toNat % 2 ^ ab)) (BitVec.ofNat 6 (q.h.toNat / 2 ^ 8)) q.data) ∧
    (q.h.toNat % 8 = 4 → decode ab q = .size) ∧
    (5 ≤ q.h.toNat % 8 → decode ab q = .malformed q.h)

/-- Two records of one operation that agree on the operands it uses are the same request: don't-care fields have no
effect (30_encoding.md R100, the spec's decision D2). -/
def Obligations.DontCareFieldsHaveNoEffect : Prop :=
  ∀ (ab : Nat) (p q : Record),
    p.h.toNat / 2 ^ 7 % 2 = 0 → p.h.toNat / 2 ^ 14 = 0 → q.h.toNat / 2 ^ 7 % 2 = 0 → q.h.toNat / 2 ^ 14 = 0 →
    p.h.toNat % 8 = q.h.toNat % 8 →
    (p.h.toNat % 8 = 0 → p.h.toNat / 2 ^ 3 % 16 = q.h.toNat / 2 ^ 3 % 16 →
      p.offset.toNat % 2 ^ ab = q.offset.toNat % 2 ^ ab → decode ab p = decode ab q) ∧
    (p.h.toNat % 8 = 1 → p.h.toNat / 2 ^ 3 % 16 = q.h.toNat / 2 ^ 3 % 16 →
      p.offset.toNat % 2 ^ ab = q.offset.toNat % 2 ^ ab → p.data = q.data → decode ab p = decode ab q) ∧
    (p.h.toNat % 8 = 2 → decode ab p = decode ab q) ∧
    (p.h.toNat % 8 = 3 → p.h.toNat / 2 ^ 8 % 64 = q.h.toNat / 2 ^ 8 % 64 →
      p.offset.toNat % 2 ^ ab = q.offset.toNat % 2 ^ ab → p.data = q.data → decode ab p = decode ab q) ∧
    (p.h.toNat % 8 = 4 → decode ab p = decode ab q)

/-- Words of the spec's vectors decode to the requests they stand for (30_encoding.md R107, 95_test_vectors.md V-NW5,
V-AC1, V-IS5, V-RST4, V-SZ1, V-MF4), with ADDR_BITS = 32. That H is the lowest part of the number, then OFFSET, then
DATA, is the model's choice: log entry 6. -/
def Obligations.VectorWordsDecode : Prop :=
  decodeBits 32 0x0000000000000000000000000020 = .rd 0x0 4 ∧
  decodeBits 32 0x00000000000000FF000000050009 = .wr 0x5 1 0xFF ∧
  decodeBits 32 0x0000000000000000000000000018 = .rd 0x0 3 ∧
  decodeBits 32 0x000000000000005A000000001803 = .iset 0x0 24 0x5A ∧
  decodeBits 32 0xFFFFFFFFFFFFFFFF123456780002 = .rst ∧
  decodeBits 32 0x0000000000000000000000000004 = .size ∧
  decodeBits 32 0x00000000000000000000000000A0 = .malformed 0x00A0

/-! ### One step -/

/-- A step takes the next request off the stream and executes what it decodes to (30_encoding.md R90, R101). -/
def Obligations.StepRunsTheNextRequest : Prop :=
  ∀ (s : State) (q : Record) (rest : List Record), s.stream = q :: rest →
    step s = exec (decode s.bank.schema.addrBits q) { s with stream := rest }

/-- A step on an empty stream changes nothing. The model's choice: log entry 5. -/
def Obligations.StepWithoutRequestIdles : Prop :=
  ∀ s : State, s.stream = [] → step s = .next s

/-- Requests are processed one at a time in stream order, each answered with one response and one list of events
(30_encoding.md R90). -/
def Obligations.EachRequestGetsOneReplyInOrder : Prop :=
  ∀ (s t : State) (q : Record) (rest : List Record), s.stream = q :: rest → step s = .next t →
    t.stream = rest ∧ ∃ r : Reply, t.replies = s.replies ++ [r]

/-- No step changes the schema (10_state.md R21). -/
def Obligations.StepKeepsTheSchema : Prop :=
  ∀ s t : State, step s = .next t → t.bank = s.bank

/-- Which operations can be refused, and with what (60_exceptions.md R262); RESET, SIZE, MALFORMED and an access that
reaches no register never are. That refusals are the model's, not the hardware's, is the spec's decision D16, D18. -/
def Obligations.OnlyTheseRefusalsHappen : Prop :=
  ∀ (i : Instr) (s : State) (r : Refusal), exec i s = .refused r →
    (∃ off wb d, Reaches s off.toNat wb.toNat d ∧ (i = .rd off wb ∨ ∃ data, i = .wr off wb data) ∧
      r = .callbackChangesConstant) ∨
    (∃ off flo data, i = .iset off flo data ∧ (r = .isetNoRegister ∨ r = .isetNoField ∨ r = .isetNonStorage ∨
      r = .isetConstant ∨ r = .isetValueTooWide))

/-! ### The invariant -/

/-- Every step keeps the invariant: the store lists exactly the storage fields in order, values have their widths, and
ReadOnlyConstant fields hold their reset slices (10_state.md R29, R30, R33). -/
def Obligations.StepKeepsTheInvariant : Prop :=
  ∀ s t : State, s.Inv → step s = .next t → t.Inv

/-- Every newly constructed bank meets the invariant (70_reset_and_hazards.md R281). -/
def Obligations.PowerOnMeetsTheInvariant : Prop :=
  ∀ b : Bank, (State.ofBank b).Inv

/-- The reset state (the example bank EX, log entry 2) meets the invariant. -/
def Obligations.ResetStateMeetsTheInvariant : Prop := State.reset.Inv

/-- A ReadOnlyConstant field always holds its reset slice: a bank starts with it, no operation changes it, and RESET
restores the same value; ISET does not target it and no callback changes it, since those steps are refused
(10_state.md R33, an inference of the spec from R38, R127, R142, R150). -/
def Obligations.ReadOnlyConstantAlwaysHoldsItsResetSlice : Prop :=
  ∀ (b : Bank) (d : RegDecl) (f : FieldDecl), d ∈ b.schema.regs → f ∈ layout (schemaWidth b.schema) d →
    storageKind f.kind = true → f.mode = .readOnlyConstant →
    (State.ofBank b).field d f = resetSlice d f ∧
    (∀ (i : Instr) (s t : State), s.bank = b → s.field d f = resetSlice d f → exec i s = .next t →
      t.field d f = resetSlice d f) ∧
    (∀ (s t : State), s.bank = b → exec .rst s = .next t → t.field d f = resetSlice d f) ∧
    (∀ (s : State) (off : Word) (flo : BitVec 6) (data : Word), s.bank = b → off.toNat = d.offset →
      flo.toNat = f.lo → exec (.iset off flo data) s = .refused .isetConstant)

/-! ### Construction -/

/-- The fields of every register partition [0, W): they are in ascending order, every bit belongs to exactly one, the
widths add up to W, `lo` identifies a field, and a field that covers an undeclared bit is Reserved (10_state.md
R29). -/
def Obligations.FieldsPartitionTheRegister : Prop :=
  ∀ (b : Bank) (d : RegDecl), d ∈ b.schema.regs →
    (layout (schemaWidth b.schema) d).Pairwise (fun f g => f.lo < g.lo) ∧
    (∀ i, i < schemaWidth b.schema →
      ∃ f ∈ layout (schemaWidth b.schema) d, (f.lo ≤ i ∧ i < f.lo + f.width) ∧
        ∀ g ∈ layout (schemaWidth b.schema) d, g.lo ≤ i ∧ i < g.lo + g.width → g = f) ∧
    ((layout (schemaWidth b.schema) d).map FieldDecl.width).sum = schemaWidth b.schema ∧
    (∀ f ∈ layout (schemaWidth b.schema) d, f.lo + f.width ≤ schemaWidth b.schema) ∧
    (∀ f ∈ layout (schemaWidth b.schema) d, ∀ g ∈ layout (schemaWidth b.schema) d, f.lo = g.lo → f = g) ∧
    (∀ f ∈ layout (schemaWidth b.schema) d, f ∉ d.fields → f.kind = .reserved)

/-- In every schema that passes CE1 and CE2, zero-width fields or not, each maximal run of bits of a register that no
declared field covers is one implicit Reserved field without name and callbacks, there is no other implicit field, and
every declared field stays (43_construction.md R231). -/
def Obligations.GapsBecomeReservedFields : Prop :=
  ∀ (sch : Schema) (d : RegDecl), d ∈ sch.regs →
    -- CE1, CE2
    (∀ d ∈ sch.regs, d.fields.Pairwise fun f g =>
      ¬ ∃ i, (f.lo ≤ i ∧ i < f.lo + f.width) ∧ (g.lo ≤ i ∧ i < g.lo + g.width)) →
    (∀ d ∈ sch.regs, ∀ f ∈ d.fields, f.lo + f.width ≤ 8 * sch.native) →
    (∀ f ∈ d.fields, f ∈ layout (schemaWidth sch) d) ∧
    (∀ f ∈ layout (schemaWidth sch) d, f ∉ d.fields →
      f.kind = .reserved ∧ f.name = none ∧ f.wcb = none ∧ f.rcb = none ∧
      1 ≤ f.width ∧ f.lo + f.width ≤ schemaWidth sch ∧
      (∀ i, f.lo ≤ i → i < f.lo + f.width → ∀ g ∈ d.fields, ¬ (g.lo ≤ i ∧ i < g.lo + g.width)) ∧
      (f.lo = 0 ∨ ∃ g ∈ d.fields, g.lo ≤ f.lo - 1 ∧ f.lo - 1 < g.lo + g.width) ∧
      (f.lo + f.width = schemaWidth sch ∨
        ∃ g ∈ d.fields, g.lo ≤ f.lo + f.width ∧ f.lo + f.width < g.lo + g.width)) ∧
    ((layout (schemaWidth sch) d).filter fun f => decide (f ∉ d.fields)).Nodup ∧
    (∀ a e, a ≤ e → e < schemaWidth sch →
      (∀ i, a ≤ i → i ≤ e → ∀ g ∈ d.fields, ¬ (g.lo ≤ i ∧ i < g.lo + g.width)) →
      (a = 0 ∨ ∃ g ∈ d.fields, g.lo ≤ a - 1 ∧ a - 1 < g.lo + g.width) →
      (e + 1 = schemaWidth sch ∨ ∃ g ∈ d.fields, g.lo ≤ e + 1 ∧ e + 1 < g.lo + g.width) →
      ∃ f ∈ layout (schemaWidth sch) d, f.lo = a ∧ f.width = e - a + 1 ∧ f.kind = .reserved)

/-- A schema gives a bank exactly when all fifteen construction checks hold (43_construction.md R221, R223; CE4 to CE15
are the spec's own additions; what a check says of a schema that fails another one, where the spec leaves it open, does
not matter to this: log entry 17). -/
def Obligations.SchemaIsABankExactlyWhenEveryCheckHolds : Prop :=
  ∀ sch : Schema, (∃ s, construct sch = some s) ↔
    -- CE1
    (∀ d ∈ sch.regs, d.fields.Pairwise fun f g =>
      ¬ ∃ i, (f.lo ≤ i ∧ i < f.lo + f.width) ∧ (g.lo ≤ i ∧ i < g.lo + g.width)) ∧
    -- CE2
    (∀ d ∈ sch.regs, ∀ f ∈ d.fields, f.lo + f.width ≤ 8 * sch.native) ∧
    -- CE3
    (∀ d ∈ sch.regs, ∀ f ∈ d.fields, f.kind = .enum → d.reset.toNat / 2 ^ f.lo % 2 ^ f.width ∈ f.valid) ∧
    -- CE4
    (∀ d ∈ sch.regs, ∀ f ∈ d.fields, 1 ≤ f.width) ∧
    -- CE5
    (∀ d ∈ sch.regs, ∀ f ∈ d.fields, f.kind = .flag → f.width = 1) ∧
    -- CE6
    (∀ d ∈ sch.regs, ∀ f ∈ d.fields, f.kind = .enum → f.valid ≠ [] ∧ ∀ v ∈ f.valid, v < 2 ^ f.width) ∧
    -- CE7
    (∀ d ∈ sch.regs, ∀ f ∈ d.fields, f.kind = .enum → ∀ v, f.policy = .clamp v → v ∈ f.valid) ∧
    -- CE8
    (∀ d ∈ sch.regs, ∀ f ∈ d.fields, storageKind f.kind = true → f.mode = .writeOneToClear →
      f.kind = .flag ∨ f.kind = .unsignedRange) ∧
    -- CE9
    (∀ d ∈ sch.regs, d.offset % sch.native = 0 ∧ d.offset + sch.native ≤ sch.size) ∧
    -- CE10
    sch.regs.Pairwise (fun d e => d.offset ≠ e.offset) ∧
    -- CE11
    (sch.native ∈ [1, 2, 4, 8] ∧ (∀ w ∈ sch.permitted, w ∈ [1, 2, 4, 8]) ∧
      (∀ w ∈ sch.permitted, w ≤ sch.native) ∧ sch.native ∈ sch.permitted) ∧
    -- CE12
    (0 < sch.size ∧ sch.size % sch.native = 0 ∧ sch.size ≤ 2 ^ sch.addrBits) ∧
    -- CE13
    (∀ d ∈ sch.regs, ∀ f ∈ d.fields, f.kind = .reserved ∨ f.kind = .tagged → f.wcb = none ∧ f.rcb = none) ∧
    -- CE14
    (∀ d ∈ sch.regs, ∀ f ∈ layout (8 * sch.native) d, f.kind = .reserved ∨ f.kind = .tagged →
      d.reset.toNat / 2 ^ f.lo % 2 ^ f.width = 0) ∧
    -- CE15
    (1 ≤ sch.addrBits ∧ sch.addrBits ≤ 64)

/-! ### RESET -/

/-- After RESET, and after construction, every storage field of every register holds its reset slice, and the fields
without state have reset bits 0; RESET completes in every state, answers 0 with no event, and changes nothing else
(10_state.md R38; that a bank starts in its reset state is the spec's decision D19). -/
def Obligations.ResetRestoresEveryField : Prop :=
  (∀ s : State, ∃ t : State, exec .rst s = .next t ∧
    t.bank = s.bank ∧ t.stream = s.stream ∧ t.replies = s.replies ++ [⟨0, []⟩] ∧
    (∀ d ∈ s.bank.schema.regs, ∀ f ∈ s.storage d,
      (t.field d f).toNat = d.reset.toNat / 2 ^ f.lo % 2 ^ f.width) ∧
    (∀ reg lo, (∀ d ∈ s.bank.schema.regs, ∀ f ∈ s.storage d, (d.offset, f.lo) ≠ (reg, lo)) →
      t.vals.val reg lo = s.vals.val reg lo)) ∧
  (∀ (b : Bank), ∀ d ∈ b.schema.regs,
    (∀ f ∈ storageFields (schemaWidth b.schema) d,
      ((State.ofBank b).field d f).toNat = d.reset.toNat / 2 ^ f.lo % 2 ^ f.width) ∧
    (∀ f ∈ layout (schemaWidth b.schema) d, f.kind = .reserved ∨ f.kind = .tagged →
      d.reset.toNat / 2 ^ f.lo % 2 ^ f.width = 0))

/-- RESET gives exactly the stored values of the newly constructed bank (70_reset_and_hazards.md R281, R282: the
spec's decision D19 and its inference). -/
def Obligations.ResetGivesThePowerOnValues : Prop :=
  ∀ s : State, s.Inv →
    exec .rst s = .next { s with vals := (State.ofBank s.bank).vals, replies := s.replies ++ [⟨0, []⟩] }

/-- RESET never leaves an Enum field outside V (43_construction.md R224). -/
def Obligations.ResetLeavesEnumFieldsValid : Prop :=
  ∀ (s t : State) (d : RegDecl) (f : FieldDecl), exec .rst s = .next t → d ∈ s.bank.schema.regs → f ∈ s.fields d →
    f.kind = .enum → (t.field d f).toNat ∈ f.valid

/-! ### SIZE and MALFORMED -/

/-- SIZE completes in every state, answers SIZE, emits nothing and changes nothing (42_bus_ops.md R195). A SIZE of 2^64
does not fit the response: the answer is then a free value (log entry 8), and the rest holds all the same. -/
def Obligations.SizeAnswersTheSpan : Prop :=
  ∀ s : State, ∃ v : Word, exec .size s = .next { s with replies := s.replies ++ [⟨v, []⟩] } ∧
    (s.bank.schema.size < 2 ^ 64 → v.toNat = s.bank.schema.size)

/-- A MALFORMED request completes in every state: no state change, response 0, one MalformedRequest
(30_encoding.md R102). -/
def Obligations.MalformedRequestIsAbsorbed : Prop :=
  ∀ (h : BitVec 16) (s : State),
    exec (.malformed h) s = .next { s with replies := s.replies ++ [⟨0, [.diag (.malformedRequest h)]⟩] }

/-! ### ISET -/

/-- ISET stores the value verbatim in the field it names, outside V too; it runs no callback, emits nothing and applies
no enum policy, and changes nothing else (40_field_ops.md R151). -/
def Obligations.IsetStoresTheValueVerbatim : Prop :=
  ∀ (s : State) (off : Word) (flo : BitVec 6) (data : Word) (d : RegDecl) (f : FieldDecl),
    d ∈ s.bank.schema.regs → off.toNat = d.offset → f ∈ s.storage d → flo.toNat = f.lo →
    f.mode ≠ .readOnlyConstant → data.toNat < 2 ^ f.width →
    ∃ t : State, exec (.iset off flo data) s = .next t ∧ t.bank = s.bank ∧ t.stream = s.stream ∧
      t.replies = s.replies ++ [⟨0, []⟩] ∧ t.field d f = data ∧
      ∀ reg lo, (reg, lo) ≠ (d.offset, f.lo) → t.vals.val reg lo = s.vals.val reg lo

/-- The refusals of ISET, in their order: no register, no field start, no storage, a constant, a value too wide
(40_field_ops.md R150, 60_exceptions.md R262). -/
def Obligations.IsetRefusesBadTargetsInOrder : Prop :=
  ∀ (s : State) (off : Word) (flo : BitVec 6) (data : Word),
    ((∀ d ∈ s.bank.schema.regs, d.offset ≠ off.toNat) →
      exec (.iset off flo data) s = .refused .isetNoRegister) ∧
    (∀ d ∈ s.bank.schema.regs, d.offset = off.toNat →
      ((∀ f ∈ s.fields d, f.lo ≠ flo.toNat) → exec (.iset off flo data) s = .refused .isetNoField) ∧
      (∀ f ∈ s.fields d, f.lo = flo.toNat →
        (f.kind = .reserved ∨ f.kind = .tagged → exec (.iset off flo data) s = .refused .isetNonStorage) ∧
        (storageKind f.kind = true → f.mode = .readOnlyConstant →
          exec (.iset off flo data) s = .refused .isetConstant) ∧
        (storageKind f.kind = true → f.mode ≠ .readOnlyConstant → 2 ^ f.width ≤ data.toNat →
          exec (.iset off flo data) s = .refused .isetValueTooWide)))

/-! ### The access checks -/

/-- The access checks in their order: width, alignment, range, slot. The first that fails is reported, once, with
response 0 and no state change, for READ and WRITE alike; an access that passes all four reports none
(42_bus_ops.md R186; the order is the spec's decision D24). -/
def Obligations.AccessChecksAbsorbInOrder : Prop :=
  ∀ (s : State) (off : Word) (wb : BitVec 4) (data : Word),
    let absorbed := fun a : AccessAnomaly =>
      exec (.rd off wb) s = .next { s with replies := s.replies ++ [⟨0, [.diag (.access a .read off wb)]⟩] } ∧
      exec (.wr off wb data) s = .next { s with replies := s.replies ++ [⟨0, [.diag (.access a .write off wb)]⟩] }
    if wb.toNat ∉ s.bank.schema.permitted then absorbed .illegalWidth
    else if off.toNat % wb.toNat ≠ 0 then absorbed .misaligned
    else if s.bank.schema.size < off.toNat + wb.toNat then absorbed .outOfRange
    else if ∀ d ∈ s.bank.schema.regs, d.offset ≠ off.toNat - off.toNat % s.bank.schema.native then
      absorbed .unmapped
    else
      (∃ d, Reaches s off.toNat wb.toNat d) ∧
      ∀ t r, exec (.rd off wb) s = .next t ∨ exec (.wr off wb data) s = .next t →
        t.replies = s.replies ++ [r] → ∀ e ∈ r.events, ∀ a dir o b, e ≠ .diag (.access a dir o b)

/-- A width that is not permitted: IllegalWidth, READ answers 0, WRITE does nothing (60_exceptions.md R253). -/
def Obligations.IllegalWidthIsAbsorbed : Prop :=
  ∀ (s : State) (off : Word) (wb : BitVec 4) (data : Word), wb.toNat ∉ s.bank.schema.permitted →
    exec (.rd off wb) s =
      .next { s with replies := s.replies ++ [⟨0, [.diag (.access .illegalWidth .read off wb)]⟩] } ∧
    exec (.wr off wb data) s =
      .next { s with replies := s.replies ++ [⟨0, [.diag (.access .illegalWidth .write off wb)]⟩] }

/-! ### READ -/

/-- READ of a register completes when no read callback changes a constant. Only fields that a read callback may change
change; the rest of the state stays, and one reply is added (42_bus_ops.md R187, 40_field_ops.md R142). -/
def Obligations.ReadCompletesWhenCallbacksSpareConstants : Prop :=
  ∀ (s : State) (off : Word) (wb : BitVec 4) (d : RegDecl), Reaches s off.toNat wb.toNat d →
    (∀ f ∈ s.fields d, ∀ p, f.rcb = some p → sparesConstants (s.storage d) p) →
    ∃ (t : State) (r : Reply), exec (.rd off wb) s = .next t ∧ t.bank = s.bank ∧ t.stream = s.stream ∧
      t.replies = s.replies ++ [r] ∧
      (∀ reg lo, (reg ≠ d.offset ∨ ∀ g ∈ s.storage d, g.lo ≠ lo) → t.vals.val reg lo = s.vals.val reg lo) ∧
      (∀ g ∈ s.storage d, (∀ f ∈ s.fields d, ∀ p, f.rcb = some p → callbackKeeps p g.lo) →
        t.field d g = s.field d g)

/-- READ of a register without read callbacks changes no stored value. It answers the lane of the register's value,
little-endian and zero-extended, that value being the sum of the readable fields at their places, and emits TaggedRead
for each Tagged field (41_register_ops.md R160, 42_bus_ops.md R187, R193). -/
def Obligations.ReadWithoutCallbacksReturnsTheLane : Prop :=
  ∀ (s : State) (off : Word) (wb : BitVec 4) (d : RegDecl), s.Inv → Reaches s off.toNat wb.toNat d →
    (∀ f ∈ s.fields d, f.rcb = none) →
    ∃ v : Word, exec (.rd off wb) s = .next { s with replies := s.replies ++
        [⟨v, ((s.fields d).filter (fun f => decide (f.kind = .tagged))).map
          fun f => .diag (.field .taggedRead d.offset f.lo 0)⟩] } ∧
      v.toNat = ((s.fields d).map fun f =>
          if storageKind f.kind = true ∧ f.mode ≠ .write then (s.field d f).toNat * 2 ^ f.lo else 0).sum
        / 2 ^ (8 * (off.toNat % s.bank.schema.native)) % 2 ^ (8 * wb.toNat)

/-- A native READ shows each readable field at its place, as it stands after the callbacks or before them according to
READ_PACK_ORDER; Reserved, Tagged and Write-mode fields read 0 (40_field_ops.md R120, R121, 41_register_ops.md
R160). -/
def Obligations.NativeReadShowsEachField : Prop :=
  ∀ (s t : State) (off : Word) (wb : BitVec 4) (d : RegDecl), s.Inv → Reaches s off.toNat wb.toNat d →
    wb.toNat = s.bank.schema.native → exec (.rd off wb) s = .next t →
    ∃ r : Reply, t.replies = s.replies ++ [r] ∧ r.rdata.toNat < 2 ^ schemaWidth s.bank.schema ∧
      ∀ f ∈ s.fields d, r.rdata.toNat / 2 ^ f.lo % 2 ^ f.width =
        if storageKind f.kind = true ∧ f.mode ≠ .write then
          (match s.bank.schema.packOrder with
            | .callbacksFirst => (t.field d f).toNat
            | .packFirst => (s.field d f).toNat)
        else 0

/-- Every READ of a register, narrow ones too, emits TaggedRead for each Tagged field and runs each read callback of
the register, in ascending bit offset, and nothing else; a TaggedRead names the value 0 and a Tagged field packs 0; a
Reserved field emits nothing (40_field_ops.md R134). -/
def Obligations.ReadEventsAreInFieldOrder : Prop :=
  ∀ (s t : State) (off : Word) (wb : BitVec 4) (d : RegDecl), Reaches s off.toNat wb.toNat d →
    exec (.rd off wb) s = .next t →
    ∃ r : Reply, t.replies = s.replies ++ [r] ∧
      (r.events.map eventSite = (s.fields d).flatMap fun f =>
        (if f.kind = .tagged then [.diag (.field .taggedRead d.offset f.lo 0)] else []) ++
        (if f.rcb.isSome then [.cbRead d.offset f.lo 0] else [])) ∧
      (∀ e ∈ r.events, isCallbackEvent e = false → ∃ lo, e = .diag (.field .taggedRead d.offset lo 0)) ∧
      (∀ f ∈ s.fields d, f.kind = .tagged → ∀ vals, packField d.offset vals f = 0)

/-- A READ runs the read callbacks in ascending bit offset, whatever callbacks the register has. Field number i sees
`v i`, what the earlier callbacks left; its read callback gets its stored value x and that view, and what it leaves is
`v (i+1)`, which persists. The events are TaggedRead for a Tagged field and Cb(Read) with that x for a field with a
callback (40_field_ops.md R134, R140, R145, R146; the type of a read callback is the spec's decision D17). -/
def Obligations.ReadCallbackSeesEarlierEffects : Prop :=
  ∀ (s t : State) (off : Word) (wb : BitVec 4) (d : RegDecl), Reaches s off.toNat wb.toNat d →
    exec (.rd off wb) s = .next t →
    ∃ (v : Nat → Nat → Word) (ev : Nat → List Event) (rdata : Word),
      (∀ g ∈ s.storage d, v 0 g.lo = s.field d g) ∧
      (∀ i f, (s.fields d)[i]? = some f →
        let x := v i f.lo
        let tagged : List Event := if f.kind = .tagged then [.diag (.field .taggedRead d.offset f.lo 0)] else []
        (f.rcb = none → ev i = tagged ∧ ∀ g ∈ s.storage d, v (i + 1) g.lo = v i g.lo) ∧
        (∀ p, f.rcb = some p → ev i = tagged ++ [.cbRead d.offset f.lo x] ∧
          ∀ g ∈ s.storage d, v (i + 1) g.lo = viewValue g.lo (runProgram x x p (viewWith (s.storage d) (v i))))) ∧
      (∀ g ∈ s.storage d, t.field d g = v (s.fields d).length g.lo) ∧
      (∀ reg lo, (reg ≠ d.offset ∨ ∀ g ∈ s.storage d, g.lo ≠ lo) → t.vals.val reg lo = s.vals.val reg lo) ∧
      t.bank = s.bank ∧ t.stream = s.stream ∧
      t.replies = s.replies ++ [⟨rdata, (List.range (s.fields d).length).flatMap ev⟩]

/-- A register read answers (the lane of) the packed value and never fails, but for the model's refusal of a callback
that changes a constant; no diagnostic other than TaggedRead comes from it (41_register_ops.md R161). -/
def Obligations.RegisterReadFailsOnlyByAConstantChange : Prop :=
  ∀ (s : State) (off : Word) (wb : BitVec 4) (d : RegDecl), Reaches s off.toNat wb.toNat d →
    (∃ (t : State) (r : Reply), exec (.rd off wb) s = .next t ∧ t.replies = s.replies ++ [r] ∧
      (s.bank.schema.packOrder = .callbacksFirst → r.rdata =
        extractLane s.bank.schema off.toNat wb.toNat (pack d.offset t.vals (s.fields d))) ∧
      (s.bank.schema.packOrder = .packFirst → r.rdata =
        extractLane s.bank.schema off.toNat wb.toNat (pack d.offset s.vals (s.fields d))) ∧
      ∀ e ∈ r.events, ∀ dg, e = .diag dg → ∃ lo, dg = .field .taggedRead d.offset lo 0) ∨
    exec (.rd off wb) s = .refused .callbackChangesConstant

/-- A narrow READ has the side effects of the native READ of its register: the same events, which are every TaggedRead
and every read callback of the register, the same stored values afterwards, and it answers the lane of what the native
READ answers (42_bus_ops.md R190). -/
def Obligations.NarrowReadIsALaneOfTheNativeRead : Prop :=
  ∀ (s : State) (off offN : Word) (wb wbN : BitVec 4) (d : RegDecl), Reaches s off.toNat wb.toNat d →
    Reaches s offN.toNat wbN.toNat d → wbN.toNat = s.bank.schema.native →
    (∀ t : State, exec (.rd offN wbN) s = .next t →
      ∃ (u : State) (v x : Word) (ev : List Event), exec (.rd off wb) s = .next u ∧ u.vals = t.vals ∧
        t.replies = s.replies ++ [⟨v, ev⟩] ∧ u.replies = s.replies ++ [⟨x, ev⟩] ∧
        (ev.map eventSite = (s.fields d).flatMap fun f =>
          (if f.kind = .tagged then [.diag (.field .taggedRead d.offset f.lo 0)] else []) ++
          (if f.rcb.isSome then [.cbRead d.offset f.lo 0] else [])) ∧
        x.toNat = v.toNat / 2 ^ (8 * (off.toNat % s.bank.schema.native)) % 2 ^ (8 * wb.toNat)) ∧
    (∀ r, exec (.rd offN wbN) s = .refused r → exec (.rd off wb) s = .refused r)

/-- A field whose read callback clears it: the native READ answers it cleared under CALLBACKS_FIRST and as it was under
PACK_FIRST; either way it is 0 afterwards (40_field_ops.md R147, an inference of the spec from R146, R160). -/
def Obligations.ClearOnReadFollowsThePackOrder : Prop :=
  ∀ (s : State) (off : Word) (wb : BitVec 4) (d : RegDecl) (f : FieldDecl), s.Inv →
    Reaches s off.toNat wb.toNat d → wb.toNat = s.bank.schema.native → f ∈ s.storage d → f.mode ≠ .write →
    f.mode ≠ .readOnlyConstant → f.rcb = some (.assign f.lo (.const 0)) →
    (∀ g ∈ s.fields d, g ≠ f → g.rcb = none) →
    ∃ (t : State) (r : Reply), exec (.rd off wb) s = .next t ∧ t.replies = s.replies ++ [r] ∧ t.field d f = 0 ∧
      (s.bank.schema.packOrder = .callbacksFirst → r.rdata.toNat / 2 ^ f.lo % 2 ^ f.width = 0) ∧
      (s.bank.schema.packOrder = .packFirst → r.rdata.toNat / 2 ^ f.lo % 2 ^ f.width = (s.field d f).toNat)

/-- The stored value of a Write-mode field cannot be observed by READs of a register without read callbacks
(10_state.md R35). -/
def Obligations.WriteOnlyFieldIsHiddenFromReads : Prop :=
  ∀ (s : State) (off : Word) (wb : BitVec 4) (d : RegDecl) (f : FieldDecl) (x : Word),
    Reaches s off.toNat wb.toNat d → (∀ g ∈ s.fields d, g.rcb = none) → f ∈ s.storage d → f.mode = .write →
    ∃ (t u : State), exec (.rd off wb) s = .next t ∧
      exec (.rd off wb) { s with vals := s.vals.put d.offset f.lo x } = .next u ∧ u.replies = t.replies

/-! ### WRITE -/

/-- WRITE to a register completes when no write callback of a field in the lane changes a constant. It answers 0; a
field changes only if it is writable and in the lane, or if such a callback may change it; the rest of the state stays
(42_bus_ops.md R188, 40_field_ops.md R142). -/
def Obligations.WriteCompletesWhenCallbacksSpareConstants : Prop :=
  ∀ (s : State) (off : Word) (wb : BitVec 4) (data : Word) (d : RegDecl), Reaches s off.toNat wb.toNat d →
    (∀ f ∈ s.fields d, meetsLane (off.toNat % s.bank.schema.native) wb.toNat f = true → ∀ p, f.wcb = some p →
      sparesConstants (s.storage d) p) →
    ∃ (t : State) (ev : List Event), exec (.wr off wb data) s = .next t ∧ t.bank = s.bank ∧ t.stream = s.stream ∧
      t.replies = s.replies ++ [⟨0, ev⟩] ∧
      (∀ reg lo, (reg ≠ d.offset ∨ ∀ g ∈ s.storage d, g.lo ≠ lo) → t.vals.val reg lo = s.vals.val reg lo) ∧
      (∀ g ∈ s.storage d,
        writableField g = false ∨ meetsLane (off.toNat % s.bank.schema.native) wb.toNat g = false →
        (∀ f ∈ s.fields d, meetsLane (off.toNat % s.bank.schema.native) wb.toNat f = true → ∀ p, f.wcb = some p →
          callbackKeeps p g.lo) →
        t.field d g = s.field d g)

/-- WRITE to a register without write callbacks, native or narrow: every storage field's new value by its mode, kind
and policy, from the incoming bits inside the lane and the stored bits outside it (40_field_ops.md R122, R127..R131,
42_bus_ops.md R188, R192). -/
def Obligations.WriteWithoutCallbacksSetsEachField : Prop :=
  ∀ (s : State) (off : Word) (wb : BitVec 4) (data : Word) (d : RegDecl), Reaches s off.toNat wb.toNat d →
    (∀ f ∈ s.fields d, f.wcb = none) →
    let k := off.toNat % s.bank.schema.native
    ∃ (t : State) (ev : List Event), exec (.wr off wb data) s = .next t ∧ t.bank = s.bank ∧ t.stream = s.stream ∧
      t.replies = s.replies ++ [⟨0, ev⟩] ∧
      (∀ reg lo, (reg ≠ d.offset ∨ ∀ g ∈ s.storage d, g.lo ≠ lo) → t.vals.val reg lo = s.vals.val reg lo) ∧
      ∀ f ∈ s.storage d,
        let c := candidateBits k wb.toNat data f (s.field d f)
        (meetsLane k wb.toNat f = false → t.field d f = s.field d f) ∧
        (f.mode = .read ∨ f.mode = .readOnlyConstant → t.field d f = s.field d f) ∧
        (meetsLane k wb.toNat f = true → f.mode = .writeOneToClear →
          t.field d f = s.field d f &&& ~~~ incomingBits k wb.toNat data f) ∧
        (meetsLane k wb.toNat f = true → f.mode = .write ∨ f.mode = .readWrite →
          (f.kind ≠ .enum ∨ c.toNat ∈ f.valid → t.field d f = c) ∧
          (f.kind = .enum → c.toNat ∉ f.valid →
            (f.policy = .reject → t.field d f = s.field d f) ∧
            (∀ v, f.policy = .clamp v → (t.field d f).toNat = v) ∧
            (f.policy = .acceptVerbatim → t.field d f = c)))

/-- WRITE to a register without write callbacks: the diagnostics, in ascending bit offset, with the values they name
(40_field_ops.md R127, R130, R132, R133, 60_exceptions.md R251, R259). -/
def Obligations.WriteDiagnosticsAreInFieldOrder : Prop :=
  ∀ (s : State) (off : Word) (wb : BitVec 4) (data : Word) (d : RegDecl), Reaches s off.toNat wb.toNat d →
    (∀ f ∈ s.fields d, f.wcb = none) →
    ∃ t : State, exec (.wr off wb data) s = .next t ∧
      t.replies = s.replies ++ [⟨0, (s.fields d).flatMap fun f =>
        writeDiagnostics (off.toNat % s.bank.schema.native) wb.toNat data d.offset f (s.field d f)⟩]

/-- Which write callbacks a WRITE runs: exactly those of the storage fields in the lane that have one and whose mode is
Write, ReadWrite or WriteOneToClear, changed or not, in ascending bit offset; no read callback (40_field_ops.md
R135, the spec's decision D15). -/
def Obligations.WriteRunsTheCallbacksOfProcessedFields : Prop :=
  ∀ (s t : State) (off : Word) (wb : BitVec 4) (data : Word) (d : RegDecl), Reaches s off.toNat wb.toNat d →
    exec (.wr off wb data) s = .next t →
    ∃ r : Reply, t.replies = s.replies ++ [r] ∧
      (r.events.filter isCallbackEvent).map eventSite =
        ((s.fields d).filter fun f => meetsLane (off.toNat % s.bank.schema.native) wb.toNat f && f.wcb.isSome &&
          storageKind f.kind &&
          (decide (f.mode = .write) || decide (f.mode = .readWrite) || decide (f.mode = .writeOneToClear))).map
          fun f => .cbWrite d.offset f.lo 0 0

/-- A WRITE has no read side effects and is lane-isolated: no read callback and no TaggedRead; a field outside the lane
is in no event, and its value is unchanged unless a callback of a field inside the lane changes it
(42_bus_ops.md R191, the spec's decision D10). -/
def Obligations.NarrowWriteIsLaneIsolated : Prop :=
  ∀ (s t : State) (off : Word) (wb : BitVec 4) (data : Word) (d : RegDecl), Reaches s off.toNat wb.toNat d →
    exec (.wr off wb data) s = .next t →
    let inLane := fun f : FieldDecl => meetsLane (off.toNat % s.bank.schema.native) wb.toNat f
    ∃ r : Reply, t.replies = s.replies ++ [r] ∧
      (∀ e ∈ r.events, (∀ reg lo x, e ≠ .cbRead reg lo x) ∧
        (∀ reg lo x, e ≠ .diag (.field .taggedRead reg lo x))) ∧
      (∀ f ∈ s.fields d, inLane f = false → ∀ e ∈ r.events, eventField e ≠ some (d.offset, f.lo)) ∧
      (∀ g ∈ s.storage d, inLane g = false →
        (∀ f ∈ s.fields d, inLane f = true → ∀ p, f.wcb = some p → callbackKeeps p g.lo) →
        t.field d g = s.field d g)

/-- A WRITE processes the fields in ascending bit offset, whatever callbacks the register has. Field number i starts
from its value in `v i`, which is what the earlier fields and their callbacks left; a writable field in the lane commits
its new value, and its write callback then gets that old and new value and the view with the commit made; what it leaves
is `v (i+1)`. So a change to an earlier or the triggering field stays, and a change to a later field is what that
field's own processing starts from. The events are each field's diagnostic and then its Cb(Write). The WRITE completes
when no callback in the lane changes a constant (40_field_ops.md R124, R125, R135, R137, R140, R141: the spec's
decisions D15, D27 and its inference). -/
def Obligations.WriteCallbackSeesCommittedFields : Prop :=
  ∀ (s : State) (off : Word) (wb : BitVec 4) (data : Word) (d : RegDecl), Reaches s off.toNat wb.toNat d →
    let k := off.toNat % s.bank.schema.native
    ((∀ f ∈ s.fields d, meetsLane k wb.toNat f = true → ∀ p, f.wcb = some p → sparesConstants (s.storage d) p) →
      ∃ t : State, exec (.wr off wb data) s = .next t) ∧
    ∀ t : State, exec (.wr off wb data) s = .next t →
      ∃ (v : Nat → Nat → Word) (ev : Nat → List Event),
        (∀ g ∈ s.storage d, v 0 g.lo = s.field d g) ∧
        (∀ i f, (s.fields d)[i]? = some f →
          let old := v i f.lo
          let new := writtenValue k wb.toNat data f old
          let commits := meetsLane k wb.toNat f = true ∧ writableField f = true
          let committed := fun lo => if lo = f.lo then new else v i lo
          let diags := writeDiagnostics k wb.toNat data d.offset f old
          (¬ commits → ev i = diags ∧ ∀ g ∈ s.storage d, v (i + 1) g.lo = v i g.lo) ∧
          (commits → f.wcb = none → ev i = diags ∧ ∀ g ∈ s.storage d, v (i + 1) g.lo = committed g.lo) ∧
          (commits → ∀ p, f.wcb = some p → ev i = diags ++ [.cbWrite d.offset f.lo old new] ∧
            ∀ g ∈ s.storage d,
              v (i + 1) g.lo = viewValue g.lo (runProgram old new p (viewWith (s.storage d) committed)))) ∧
        (∀ g ∈ s.storage d, t.field d g = v (s.fields d).length g.lo) ∧
        (∀ reg lo, (reg ≠ d.offset ∨ ∀ g ∈ s.storage d, g.lo ≠ lo) → t.vals.val reg lo = s.vals.val reg lo) ∧
        t.bank = s.bank ∧ t.stream = s.stream ∧
        t.replies = s.replies ++ [⟨0, (List.range (s.fields d).length).flatMap ev⟩]

/-- The bits of DATA above the access width are ignored (30_encoding.md R98, 42_bus_ops.md R192). -/
def Obligations.WriteIgnoresDataAboveTheWidth : Prop :=
  ∀ (s : State) (off : Word) (wb : BitVec 4) (x y : Word),
    x.toNat % 2 ^ (8 * wb.toNat) = y.toNat % 2 ^ (8 * wb.toNat) →
    exec (.wr off wb x) s = exec (.wr off wb y) s

/-- WriteOneToClear: a native write with slice w leaves b & ~w, and a second identical write leaves it again
(41_register_ops.md R170, an inference of the spec from R131), in a register without write callbacks. -/
def Obligations.WriteOneToClearClearsWrittenOnes : Prop :=
  ∀ (s : State) (off : Word) (wb : BitVec 4) (data : Word) (d : RegDecl) (f : FieldDecl),
    Reaches s off.toNat wb.toNat d → wb.toNat = s.bank.schema.native → (∀ g ∈ s.fields d, g.wcb = none) →
    f ∈ s.storage d → f.mode = .writeOneToClear →
    ∃ t u : State, exec (.wr off wb data) s = .next t ∧ exec (.wr off wb data) t = .next u ∧
      t.field d f = s.field d f &&& ~~~ BitVec.ofNat 64 (data.toNat / 2 ^ f.lo % 2 ^ f.width) ∧
      u.field d f = t.field d f

/-- A bus write never moves an Enum field out of V under Reject or Clamp, in a register without write callbacks
(10_state.md R34, R39, 40_field_ops.md R129, R130). -/
def Obligations.EnumStaysValidUnderRejectAndClamp : Prop :=
  ∀ (s t : State) (off : Word) (wb : BitVec 4) (data : Word) (d : RegDecl) (f : FieldDecl),
    Reaches s off.toNat wb.toNat d → (∀ g ∈ s.fields d, g.wcb = none) → f ∈ s.storage d → f.kind = .enum →
    f.policy ≠ .acceptVerbatim → (s.field d f).toNat ∈ f.valid → exec (.wr off wb data) s = .next t →
    (t.field d f).toNat ∈ f.valid

/-! ### Across operations -/

/-- A READ or WRITE, its callbacks included, changes no register but the one its slot holds (40_field_ops.md R144, the
spec's decision D16). -/
def Obligations.CallbacksStayInTheirRegister : Prop :=
  ∀ (s t : State) (off : Word) (wb : BitVec 4) (data : Word),
    exec (.rd off wb) s = .next t ∨ exec (.wr off wb data) s = .next t →
    t.bank = s.bank ∧ ∀ reg lo, reg ≠ off.toNat - off.toNat % s.bank.schema.native →
      t.vals.val reg lo = s.vals.val reg lo

/-- ApplyView: a view that changes a ReadOnlyConstant field is refused; any other is stored verbatim, component by
component, and nothing else changes (40_field_ops.md R142). -/
def Obligations.ApplyViewStoresVerbatimOrRefuses : Prop :=
  ∀ (s : State) (d : RegDecl) (u : View), d ∈ s.bank.schema.regs →
    ((∃ g ∈ s.storage d, g.mode = .readOnlyConstant ∧ viewValue g.lo u ≠ s.field d g) →
      applyView d.offset u (s.storage d) s.vals = .error .callbackChangesConstant) ∧
    ((∀ g ∈ s.storage d, g.mode = .readOnlyConstant → viewValue g.lo u = s.field d g) →
      ∃ vals, applyView d.offset u (s.storage d) s.vals = .ok vals ∧
        (∀ g ∈ s.storage d, vals.val d.offset g.lo = viewValue g.lo u) ∧
        (∀ reg lo, (reg ≠ d.offset ∨ ∀ g ∈ s.storage d, g.lo ≠ lo) → vals.val reg lo = s.vals.val reg lo))

/-- The responses: a READ's has its width, all higher bits 0; WRITE, RESET, ISET and MALFORMED answer 0
(30_encoding.md R99, 42_bus_ops.md R193). -/
def Obligations.ResponsesFitTheirWidth : Prop :=
  ∀ (s t : State) (r : Reply), t.replies = s.replies ++ [r] →
    (∀ off wb, exec (.rd off wb) s = .next t → r.rdata.toNat < 2 ^ (8 * wb.toNat)) ∧
    (∀ off wb data, exec (.wr off wb data) s = .next t → r.rdata = 0) ∧
    (exec .rst s = .next t → r.rdata = 0) ∧
    (∀ off flo data, exec (.iset off flo data) s = .next t → r.rdata = 0) ∧
    (∀ h, exec (.malformed h) s = .next t → r.rdata = 0)

/-- Round trip: in a register of ReadWrite storage fields and Reserved fields without callbacks, a native write of v,
whose Enum slices are valid and whose Reserved slices are 0, and then a native read return v (41_register_ops.md
R168, an inference of the spec from R120, R128, R129, R160, R162). -/
def Obligations.WriteThenReadRoundTrips : Prop :=
  ∀ (s : State) (off : Word) (wb : BitVec 4) (v : Word) (d : RegDecl), s.Inv → Reaches s off.toNat wb.toNat d →
    wb.toNat = s.bank.schema.native → v.toNat < 2 ^ schemaWidth s.bank.schema →
    (∀ f ∈ s.fields d, f.kind = .reserved ∨ (storageKind f.kind = true ∧ f.mode = .readWrite)) →
    (∀ f ∈ s.fields d, f.wcb = none ∧ f.rcb = none) →
    (∀ f ∈ s.fields d, f.kind = .enum → v.toNat / 2 ^ f.lo % 2 ^ f.width ∈ f.valid) →
    (∀ f ∈ s.fields d, f.kind = .reserved → v.toNat / 2 ^ f.lo % 2 ^ f.width = 0) →
    ∃ (t u : State) (ev : List Event), exec (.wr off wb v) s = .next t ∧ exec (.rd off wb) t = .next u ∧
      u.replies = t.replies ++ [⟨v, ev⟩]

/-- Reset idempotence: after RESET a native read answers the reset value in the readable bits, whatever was written
before, when each read callback changes nothing on the register's reset view. That is the whole reset value when no
Write-mode field has reset bits; under PACK_FIRST read callbacks do not matter to this first read (41_register_ops.md R169, an inference of the spec from R121, R160, R166). -/
def Obligations.ReadAfterResetShowsTheResetValue : Prop :=
  ∀ (s : State) (off : Word) (wb : BitVec 4) (d : RegDecl), Reaches s off.toNat wb.toNat d →
    wb.toNat = s.bank.schema.native →
    let readMask := BitVec.ofNat 64 ((s.fields d).map fun f =>
      if storageKind f.kind = true ∧ f.mode ≠ .write then (2 ^ f.width - 1) * 2 ^ f.lo else 0).sum
    let resetView : View := (s.storage d).map fun g => ⟨g.lo, g.width, resetSlice d g⟩
    ∃ t : State, exec .rst s = .next t ∧
      ((∀ f ∈ s.fields d, ∀ p, f.rcb = some p →
          runProgram (resetSlice d f) (resetSlice d f) p resetView = resetView) →
        ∃ (u : State) (ev : List Event), exec (.rd off wb) t = .next u ∧
          u.replies = t.replies ++ [⟨d.reset &&& readMask, ev⟩]) ∧
      (s.bank.schema.packOrder = .packFirst → ∀ u : State, exec (.rd off wb) t = .next u →
        ∃ ev : List Event, u.replies = t.replies ++ [⟨d.reset &&& readMask, ev⟩]) ∧
      ((∀ f ∈ s.storage d, f.mode = .write → d.reset.toNat / 2 ^ f.lo % 2 ^ f.width = 0) →
        (d.reset &&& readMask).toNat = d.reset.toNat % 2 ^ schemaWidth s.bank.schema)

/-- Every callback the spec allows is one of the model's programs: for a register with storage fields at any places and
of any widths, every function from old value, new value and view to a view of the register is some program's meaning
(40_field_ops.md R138, R145; log entry 3). -/
def Obligations.EveryCallbackIsAProgram : Prop :=
  ∀ (shape : List (Nat × Nat)) (F : Word → Word → View → View),
    shape.Pairwise (fun a b => a.1 ≠ b.1) →
    (∀ old new u, viewFits shape u → viewFits shape (F old new u)) →
    ∃ p : Program, ∀ old new u, viewFits shape u → runProgram old new p u = F old new u
end

