-- ==== Sys2Proof/Laws/Bits.lean ====
section
/-! SUPPORT. The bits and the numeric value of masks, slices and truncations. -/

namespace Sys2Proof.Machine

theorem mask_toNat (n : Nat) (h : n ≤ 64) : (mask n).toNat = 2 ^ n - 1 := by
  have := Nat.pow_le_pow_right (show 0 < 2 by decide) h
  have := Nat.two_pow_pos n
  rw [mask, BitVec.toNat_ofNat, Nat.mod_eq_of_lt]; omega

@[simp] theorem mask_getLsbD (n i : Nat) : (mask n).getLsbD i = (decide (i < 64) && decide (i < n)) := by
  simp [mask, BitVec.getLsbD_ofNat, Nat.testBit_two_pow_sub_one]

@[simp] theorem slice_getLsbD (v : Word) (lo w i : Nat) :
    (slice v lo w).getLsbD i = (decide (i < w) && v.getLsbD (lo + i)) := by
  rw [slice, BitVec.getLsbD_and, BitVec.getLsbD_ushiftRight, mask_getLsbD]
  by_cases h : i < 64
  · simp [h, Bool.and_comm]
  · simp [h, BitVec.getLsbD_of_ge v (lo + i) (by omega)]

@[simp] theorem trunc_getLsbD (n i : Nat) (v : Word) :
    (trunc n v).getLsbD i = (decide (i < n) && v.getLsbD i) := by
  rw [trunc, BitVec.getLsbD_and, mask_getLsbD]
  by_cases h : i < 64
  · simp [h, Bool.and_comm]
  · simp [h, BitVec.getLsbD_of_ge v i (by omega)]

theorem trunc_toNat (n : Nat) (v : Word) : (trunc n v).toNat = v.toNat % 2 ^ n := by
  apply Nat.eq_of_testBit_eq
  intro i
  rw [Nat.testBit_mod_two_pow, BitVec.testBit_toNat, BitVec.testBit_toNat, trunc_getLsbD]

theorem slice_toNat (v : Word) (lo w : Nat) : (slice v lo w).toNat = v.toNat / 2 ^ lo % 2 ^ w := by
  apply Nat.eq_of_testBit_eq
  intro i
  rw [Nat.testBit_mod_two_pow, Nat.testBit_div_two_pow, BitVec.testBit_toNat, BitVec.testBit_toNat, slice_getLsbD,
    Nat.add_comm]

theorem slice_lt (v : Word) (lo w : Nat) : (slice v lo w).toNat < 2 ^ w := by
  rw [slice_toNat]; exact Nat.mod_lt _ (Nat.two_pow_pos w)

theorem trunc_lt (n : Nat) (v : Word) : (trunc n v).toNat < 2 ^ n := by
  rw [trunc_toNat]; exact Nat.mod_lt _ (Nat.two_pow_pos n)

theorem trunc_eq_self {n : Nat} {v : Word} (h : v.toNat < 2 ^ n) : trunc n v = v := by
  apply BitVec.eq_of_toNat_eq
  rw [trunc_toNat, Nat.mod_eq_of_lt h]

/-- A word fits `w` bits exactly when its bits from `w` on are clear. -/
theorem fits_iff_getLsbD (v : Word) (w : Nat) : v.toNat < 2 ^ w ↔ ∀ i, w ≤ i → v.getLsbD i = false := by
  constructor
  · intro h i hi
    rw [← BitVec.testBit_toNat]
    exact Nat.testBit_lt_two_pow (lt_of_lt_of_le h (Nat.pow_le_pow_right (by decide) hi))
  · intro h
    refine Nat.lt_pow_two_of_testBit _ fun i hi => ?_
    rw [BitVec.testBit_toNat]; exact h i hi

/-- Bits that are clear in a word stay clear under `and`. -/
theorem fits_and_left {v : Word} {w : Nat} (m : Word) (h : v.toNat < 2 ^ w) : (v &&& m).toNat < 2 ^ w := by
  rw [fits_iff_getLsbD] at *
  intro i hi
  rw [BitVec.getLsbD_and, h i hi, Bool.false_and]

theorem fits_or {v u : Word} {w : Nat} (hv : v.toNat < 2 ^ w) (hu : u.toNat < 2 ^ w) :
    (v ||| u).toNat < 2 ^ w := by
  rw [fits_iff_getLsbD] at *
  intro i hi
  rw [BitVec.getLsbD_or, hv i hi, hu i hi, Bool.or_false]

end Sys2Proof.Machine
end

