-- ==== Sys2Proof/Laws/Callback.lean ====
section
/-! SUPPORT. Views: assigning a component, and what a callback's program keeps of the view it receives. -/

namespace Sys2Proof.Machine

@[simp] theorem viewAssign_nil (lo : Nat) (v : Word) : viewAssign lo v [] = [] := rfl
@[simp] theorem viewAssign_cons (lo : Nat) (v : Word) (c : ViewCell) (u : View) :
    viewAssign lo v (c :: u) = (if c.lo = lo then ⟨c.lo, c.width, trunc c.width v⟩ else c) :: viewAssign lo v u := rfl

theorem viewValue_assign_of_ne (u : View) {lo lo' : Nat} (v : Word) (h : lo' ≠ lo) :
    viewValue lo' (viewAssign lo v u) = viewValue lo' u := by
  induction u with
  | nil => rfl
  | cons c cs ih =>
    rw [viewAssign_cons, viewValue, viewValue, ih]
    by_cases hc : c.lo = lo
    · have : c.lo ≠ lo' := fun e => h (e.symm.trans hc)
      simp [hc, h.symm]
    · simp [hc]

theorem viewShape_assign (u : View) (lo : Nat) (v : Word) : viewShape (viewAssign lo v u) = viewShape u := by
  induction u with
  | nil => rfl
  | cons c cs ih =>
    rw [viewAssign_cons, viewShape, List.map_cons, viewShape, List.map_cons]
    rw [viewShape, viewShape] at ih
    rw [ih]
    by_cases hc : c.lo = lo <;> simp [hc]

theorem viewFits_assign {shape : List (Nat × Nat)} {u : View} (h : viewFits shape u) (lo : Nat) (v : Word) :
    viewFits shape (viewAssign lo v u) := by
  refine ⟨(viewShape_assign u lo v).trans h.1, ?_⟩
  intro c hc
  rw [viewAssign, List.mem_map] at hc
  obtain ⟨a, ha, rfl⟩ := hc
  by_cases hl : a.lo = lo
  · rw [if_pos hl]; exact trunc_lt _ _
  · rw [if_neg hl]; exact h.2 a ha

/-- A callback leaves a view of the same register: the same places and widths, each value within its width
(40_field_ops.md R142). -/
theorem viewFits_runProgram {shape : List (Nat × Nat)} (old new : Word) (p : Program) {u : View}
    (h : viewFits shape u) : viewFits shape (runProgram old new p u) := by
  induction p generalizing u with
  | skip => exact h
  | assign lo e => exact viewFits_assign h ..
  | seq p q ihp ihq => exact ihq (ihp h)
  | ite c p q ihp ihq =>
    rw [runProgram]
    split
    · exact ihp h
    · exact ihq h

/-- A place that a program does not assign keeps its value. -/
theorem callbackKeeps_of_not_assigned {p : Program} {lo : Nat} (h : lo ∉ programAssigns p) : callbackKeeps p lo := by
  induction p with
  | skip => exact fun _ _ _ => rfl
  | assign lo' e =>
    intro old new u
    exact viewValue_assign_of_ne _ _ (by simpa [programAssigns] using h)
  | seq p q ihp ihq =>
    simp only [programAssigns, List.mem_append, not_or] at h
    intro old new u
    rw [runProgram, ihq h.2, ihp h.1]
  | ite c p q ihp ihq =>
    simp only [programAssigns, List.mem_append, not_or] at h
    intro old new u
    rw [runProgram]
    split
    · exact ihp h.1 ..
    · exact ihq h.2 ..

/-- The value at a place of a fitting view has the width its shape gives. -/
theorem viewValue_lt {shape : List (Nat × Nat)} {u : View} (h : viewFits shape u) {lo width : Nat}
    (hd : shape.Pairwise (fun a b => a.1 ≠ b.1)) (hm : (lo, width) ∈ shape) : (viewValue lo u).toNat < 2 ^ width := by
  obtain ⟨hs, hv⟩ := h
  induction u generalizing shape with
  | nil => rw [← hs] at hm; simp [viewShape] at hm
  | cons c cs ih =>
    rw [← hs, viewShape, List.map_cons] at hd hm
    rw [List.pairwise_cons] at hd
    rw [viewValue]
    rcases List.mem_cons.1 hm with e | hm'
    · injection e with e1 e2
      rw [if_pos e1.symm, e2]; exact hv c (by simp)
    · have : c.lo ≠ lo := hd.1 _ hm'
      rw [if_neg this]
      exact ih hd.2 hm' rfl fun c' hc' => hv c' (by simp [hc'])

/-- The component of `view(r)` for a storage field is its stored value. -/
theorem viewValue_viewOf (reg : Nat) (vals : Store) {storage : List FieldDecl}
    {g : FieldDecl} (hg : g ∈ storage) : viewValue g.lo (viewOf reg vals storage) = vals.val reg g.lo := by
  induction storage with
  | nil => simp at hg
  | cons f fs ih =>
    rw [viewOf, List.map_cons, viewValue]
    by_cases h : f.lo = g.lo
    · simp only [h, if_true]
    · simp only [h, if_false]
      rcases List.mem_cons.1 hg with rfl | hg
      · exact absurd rfl h
      · exact ih hg

/-- `view(r)` is the view with the stored values as components. -/
theorem viewOf_eq_viewWith (reg : Nat) (vals : Store) (storage : List FieldDecl) :
    viewOf reg vals storage = viewWith storage fun lo => vals.val reg lo := rfl

theorem viewShape_viewOf (reg : Nat) (vals : Store) (storage : List FieldDecl) :
    viewShape (viewOf reg vals storage) = storage.map fun f => (f.lo, f.width) := by
  simp [viewShape, viewOf]

/-- `view(r)` of a register whose stored values have their widths. -/
theorem viewFits_viewOf {reg : Nat} {vals : Store} {storage : List FieldDecl}
    (h : ∀ g ∈ storage, (vals.val reg g.lo).toNat < 2 ^ g.width) :
    viewFits (storage.map fun f => (f.lo, f.width)) (viewOf reg vals storage) := by
  refine ⟨viewShape_viewOf .., ?_⟩
  intro c hc
  rw [viewOf, List.mem_map] at hc
  obtain ⟨g, hg, rfl⟩ := hc
  exact h g hg

end Sys2Proof.Machine
end

