-- ==== Sys2Proof/Laws/Construction.lean ====
section
/-! SUPPORT. What the construction checks give: legal widths, and the order and bounds of a register's fields. -/

namespace Sys2Proof.Machine

/-! ### The checks -/

theorem checkHolds_of_wellFormed {sch : Schema} (h : schemaWellFormed sch = true) (c : Check) :
    checkHolds sch c = true := by
  rw [schemaWellFormed, List.all_eq_true] at h
  exact h c (by cases c <;> decide)

theorem wellFormed_iff_checks (sch : Schema) :
    schemaWellFormed sch = true ↔ ∀ c, checkHolds sch c = true := by
  refine ⟨checkHolds_of_wellFormed, fun h => ?_⟩
  rw [schemaWellFormed, List.all_eq_true]
  exact fun c _ => h c

theorem noPair_iff {α : Type} (rel : α → α → Bool) (l : List α) :
    noPair rel l = true ↔ l.Pairwise (fun a b => rel a b = false) := by
  induction l with
  | nil => simp [noPair]
  | cons a as ih => simp [noPair, ih, List.pairwise_cons]

theorem allFields_iff (sch : Schema) (p : RegDecl → FieldDecl → Bool) :
    allFields sch p = true ↔ ∀ d ∈ sch.regs, ∀ f ∈ d.fields, p d f = true := by
  simp [allFields]

theorem fieldsOverlap_false_iff (a b : FieldDecl) :
    fieldsOverlap a b = false ↔
      a.lo + a.width ≤ b.lo ∨ b.lo + b.width ≤ a.lo ∨ a.width = 0 ∨ b.width = 0 := by
  rw [fieldsOverlap, decide_eq_false_iff_not]; omega

/-- Two fields overlap when a bit belongs to both (43_construction.md R222). -/
theorem fieldsOverlap_false_iff_bits (a b : FieldDecl) :
    fieldsOverlap a b = false ↔ ¬ ∃ i, (a.lo ≤ i ∧ i < a.lo + a.width) ∧ (b.lo ≤ i ∧ i < b.lo + b.width) := by
  rw [fieldsOverlap, decide_eq_false_iff_not, not_iff_not]
  exact ⟨fun h => ⟨max a.lo b.lo, by omega⟩, fun ⟨i, h⟩ => by omega⟩

/-- CE1 in terms of bits. -/
theorem fieldOverlap_iff (sch : Schema) : checkHolds sch .fieldOverlap = true ↔
    ∀ d ∈ sch.regs, d.fields.Pairwise fun f g =>
      ¬ ∃ i, (f.lo ≤ i ∧ i < f.lo + f.width) ∧ (g.lo ≤ i ∧ i < g.lo + g.width) := by
  simp only [checkHolds, List.all_eq_true, noPair_iff, fieldsOverlap_false_iff_bits]

section
variable {sch : Schema} (h : schemaWellFormed sch = true)
include h

/-- CE11: the native width. -/
theorem native_cases : sch.native = 1 ∨ sch.native = 2 ∨ sch.native = 4 ∨ sch.native = 8 := by
  have := checkHolds_of_wellFormed h .widthSet
  simp [checkHolds] at this
  tauto

theorem native_pos : 0 < sch.native := by
  rcases native_cases h with e | e | e | e <;> omega

theorem schemaWidth_le : schemaWidth sch ≤ 64 := by
  rw [schemaWidth]
  rcases native_cases h with e | e | e | e <;> omega

/-- CE11: a permitted width is 1, 2, 4 or 8 and at most N. -/
theorem permitted_cases {w : Nat} (hw : w ∈ sch.permitted) :
    (w = 1 ∨ w = 2 ∨ w = 4 ∨ w = 8) ∧ w ≤ sch.native := by
  have := checkHolds_of_wellFormed h .widthSet
  simp [checkHolds] at this
  exact ⟨this.1.1.2 w hw, this.1.2 w hw⟩

/-- CE11: the native width is permitted. -/
theorem native_permitted : sch.native ∈ sch.permitted := by
  have := checkHolds_of_wellFormed h .widthSet
  simp [checkHolds] at this
  exact this.2

/-- A permitted width divides N (20_memory.md R67). -/
theorem permitted_dvd {w : Nat} (hw : w ∈ sch.permitted) : w ∣ sch.native := by
  obtain ⟨hc, hle⟩ := permitted_cases h hw
  rcases native_cases h with e | e | e | e <;> rw [e] at hle ⊢ <;> rcases hc with rfl | rfl | rfl | rfl <;>
    omega

/-- CE9. -/
theorem offset_checks {d : RegDecl} (hd : d ∈ sch.regs) :
    d.offset % sch.native = 0 ∧ d.offset + sch.native ≤ sch.size := by
  have := checkHolds_of_wellFormed h .registerOffset
  simp only [checkHolds, List.all_eq_true, Bool.and_eq_true, decide_eq_true_eq] at this
  exact this d hd

/-- CE10: an offset names one register. -/
theorem reg_unique {d e : RegDecl} (hd : d ∈ sch.regs) (he : e ∈ sch.regs) (ho : d.offset = e.offset) : d = e := by
  have hp := checkHolds_of_wellFormed h .duplicateOffset
  simp only [checkHolds, noPair_iff, decide_eq_false_iff_not] at hp
  by_contra hne
  have : Std.Symm (fun a b : RegDecl => ¬ a.offset = b.offset) := ⟨fun _ _ hab e => hab e.symm⟩
  exact (hp.forall hd he hne : ¬ d.offset = e.offset) ho

theorem regs_offset_pairwise : sch.regs.Pairwise (fun a b => a.offset ≠ b.offset) := by
  have := checkHolds_of_wellFormed h .duplicateOffset
  simpa only [checkHolds, noPair_iff, decide_eq_false_iff_not] using this

/-- CE2, CE4: the bounds of a declared field. -/
theorem declared_bounds {d : RegDecl} (hd : d ∈ sch.regs) {f : FieldDecl} (hf : f ∈ d.fields) :
    1 ≤ f.width ∧ f.lo + f.width ≤ schemaWidth sch := by
  have h2 := checkHolds_of_wellFormed h .fieldExceedsWidth
  have h4 := checkHolds_of_wellFormed h .fieldWidthZero
  simp only [checkHolds, allFields_iff, decide_eq_true_eq] at h2 h4
  exact ⟨h4 d hd f hf, h2 d hd f hf⟩

/-- CE1: declared fields do not overlap. -/
theorem declared_pairwise {d : RegDecl} (hd : d ∈ sch.regs) :
    d.fields.Pairwise (fun a b => fieldsOverlap a b = false) := by
  have h1 := checkHolds_of_wellFormed h .fieldOverlap
  simp only [checkHolds, List.all_eq_true, noPair_iff] at h1
  exact h1 d hd

/-- CE3: an Enum field resets into V. -/
theorem enum_reset_valid {d : RegDecl} (hd : d ∈ sch.regs) {f : FieldDecl} (hf : f ∈ d.fields) (he : f.kind = .enum) :
    (resetSlice d f).toNat ∈ f.valid := by
  have h3 := checkHolds_of_wellFormed h .resetInvalidEnum
  simp only [checkHolds, allFields_iff] at h3
  simpa [he] using h3 d hd f hf

/-- CE6: the discriminants fit the field. -/
theorem enum_valid_lt {d : RegDecl} (hd : d ∈ sch.regs) {f : FieldDecl} (hf : f ∈ d.fields) (he : f.kind = .enum)
    {v : Nat} (hv : v ∈ f.valid) : v < 2 ^ f.width := by
  have h6 := checkHolds_of_wellFormed h .enumSetInvalid
  simp only [checkHolds, allFields_iff] at h6
  have := h6 d hd f hf
  simp [he] at this
  exact this.2 v hv

/-- CE7: the clamp target is a discriminant. -/
theorem clamp_valid {d : RegDecl} (hd : d ∈ sch.regs) {f : FieldDecl} (hf : f ∈ d.fields) (he : f.kind = .enum)
    {v : Nat} (hp : f.policy = .clamp v) : v ∈ f.valid := by
  have h7 := checkHolds_of_wellFormed h .clampDefaultInvalid
  simp only [checkHolds, allFields_iff] at h7
  simpa [he, hp] using h7 d hd f hf

/-- CE8: no Enum field is WriteOneToClear. -/
theorem w1c_not_enum {d : RegDecl} (hd : d ∈ sch.regs) {f : FieldDecl} (hf : f ∈ d.fields)
    (hm : f.mode = .writeOneToClear) : f.kind ≠ .enum := by
  have h8 := checkHolds_of_wellFormed h .w1cKind
  simp only [checkHolds, allFields_iff] at h8
  simpa [hm] using h8 d hd f hf

/-- CE13: only storage fields have callbacks. -/
theorem callbacks_storage {d : RegDecl} (hd : d ∈ sch.regs) {f : FieldDecl} (hf : f ∈ d.fields)
    (hs : storageKind f.kind = false) : f.wcb = none ∧ f.rcb = none := by
  have h13 := checkHolds_of_wellFormed h .callbackOnNonStorage
  simp only [checkHolds, allFields_iff] at h13
  simpa [hs] using h13 d hd f hf

/-- CE14: the reset bits of a Reserved or Tagged field are 0. -/
theorem reserved_reset_zero {d : RegDecl} (hd : d ∈ sch.regs) {f : FieldDecl}
    (hf : f ∈ layout (schemaWidth sch) d) (hs : storageKind f.kind = false) : resetSlice d f = 0 := by
  have h14 := checkHolds_of_wellFormed h .resetReservedNonzero
  simp only [checkHolds, List.all_eq_true] at h14
  simpa [hs] using h14 d hd f hf

end

/-! ### The fields of a register, filled and sorted -/

/-- Bit `i` of a register belongs to a field of the list. -/
def Covered (fs : List FieldDecl) (i : Nat) : Prop := ∃ f ∈ fs, f.lo ≤ i ∧ i < f.lo + f.width

theorem not_covered_nil (i : Nat) : ¬ Covered [] i := by simp [Covered]

theorem covered_cons (f : FieldDecl) (fs : List FieldDecl) (i : Nat) :
    Covered (f :: fs) i ↔ (f.lo ≤ i ∧ i < f.lo + f.width) ∨ Covered fs i := by simp [Covered]

theorem covered_append (fs gs : List FieldDecl) (i : Nat) : Covered (fs ++ gs) i ↔ Covered fs i ∨ Covered gs i := by
  simp [Covered, or_and_right, exists_or]

theorem mem_sortFields (fs : List FieldDecl) (f : FieldDecl) : f ∈ sortFields fs ↔ f ∈ fs :=
  List.mem_insertionSort _

theorem sortFields_lo_le (fs : List FieldDecl) : (sortFields fs).Pairwise (fun a b => a.lo ≤ b.lo) :=
  List.pairwise_insertionSort (fun a b : FieldDecl => a.lo ≤ b.lo) fs

theorem covered_sortFields (fs : List FieldDecl) (i : Nat) : Covered (sortFields fs) i ↔ Covered fs i := by
  simp [Covered, mem_sortFields]

/-- A field of width 0 covers no bit. -/
theorem covered_filter_width (fs : List FieldDecl) (i : Nat) :
    Covered (fs.filter fun f => decide (1 ≤ f.width)) i ↔ Covered fs i := by
  refine exists_congr fun f => ?_
  rw [List.mem_filter, decide_eq_true_eq]
  exact ⟨fun h => ⟨h.1.1, h.2⟩, fun h => ⟨⟨h.1, by omega⟩, h.2⟩⟩

/-- What `gapsFrom` answers: fields of gaps, each not empty and between the starting bit and W; one after the other with a
covered bit between; and together the bits that no field covers. -/
theorem gapsFrom_spec {W : Nat} {fs : List FieldDecl} (at_ : Nat) (hs : fs.Pairwise (fun a b => a.lo ≤ b.lo))
    (hw : ∀ f ∈ fs, 1 ≤ f.width) :
    (∀ f ∈ gapsFrom W at_ fs, f = gapField f.lo f.width ∧ 1 ≤ f.width ∧ at_ ≤ f.lo ∧ f.lo + f.width ≤ W ∧
      (f.lo = at_ ∨ Covered fs (f.lo - 1)) ∧ (f.lo + f.width = W ∨ Covered fs (f.lo + f.width))) ∧
    (gapsFrom W at_ fs).Pairwise (fun a b => a.lo + a.width < b.lo) ∧
    ∀ i, Covered (gapsFrom W at_ fs) i ↔ at_ ≤ i ∧ i < W ∧ ¬ Covered fs i := by
  induction fs generalizing at_ with
  | nil =>
    rw [gapsFrom]
    split
    · refine ⟨?_, by simp, fun i => ?_⟩
      · simp [gapField]; omega
      · simp [covered_cons, not_covered_nil, gapField]; omega
    · simp [not_covered_nil]; omega
  | cons g gs ih =>
    rw [List.pairwise_cons] at hs
    obtain ⟨ih1, ih2, ih3⟩ := ih (max at_ (g.lo + g.width)) hs.2 fun f hf => hw f (by simp [hf])
    have hg := hw g (by simp)
    have low : ∀ i, i < g.lo → ¬ Covered gs i := by
      rintro i hi ⟨f, hf, h⟩
      have := hs.1 f hf
      omega
    have rest : ∀ f ∈ gapsFrom W (max at_ (g.lo + g.width)) gs,
        f = gapField f.lo f.width ∧ 1 ≤ f.width ∧ at_ ≤ f.lo ∧ f.lo + f.width ≤ W ∧
          (f.lo = at_ ∨ Covered (g :: gs) (f.lo - 1)) ∧ (f.lo + f.width = W ∨ Covered (g :: gs) (f.lo + f.width)) := by
      intro f hf
      obtain ⟨h1, h2, h3, h4, h5, h6⟩ := ih1 f hf
      refine ⟨h1, h2, by omega, h4, ?_, h6.imp id fun h => (covered_cons ..).2 (.inr h)⟩
      rw [covered_cons]
      rcases h5 with h5 | h5
      · omega
      · exact .inr (.inr h5)
    rw [gapsFrom]
    by_cases c : at_ < min g.lo W
    · rw [if_pos c]
      refine ⟨?_, ?_, ?_⟩
      · intro f hf
        rcases List.mem_cons.1 hf with rfl | hf
        · simp only [gapField, covered_cons, true_and, true_or]
          omega
        · exact rest f hf
      · rw [List.pairwise_cons]
        refine ⟨fun f hf => ?_, ih2⟩
        have := ih1 f hf
        simp only [gapField]
        omega
      · intro i
        rw [covered_cons, covered_cons, ih3]
        simp only [gapField]
        by_cases hc : Covered gs i
        · have := mt (low i) (not_not.2 hc)
          simp only [hc, or_true, not_true_eq_false, and_false, or_false, iff_false]
          omega
        · simp only [hc, or_false, not_false_eq_true, and_true]
          omega
    · rw [if_neg c]
      refine ⟨rest, ih2, fun i => ?_⟩
      rw [covered_cons, ih3]
      by_cases hc : Covered gs i
      · simp only [hc, or_true, not_true_eq_false, and_false]
      · simp only [hc, or_false, not_false_eq_true, and_true]
        omega

/-- The implicit fields are the maximal runs of bits that no declared field covers (43_construction.md R231). -/
theorem implicitFields_spec (W : Nat) (fs : List FieldDecl) :
    (∀ f ∈ implicitFields W fs, f = gapField f.lo f.width ∧ 1 ≤ f.width ∧ f.lo + f.width ≤ W ∧
      (f.lo = 0 ∨ Covered fs (f.lo - 1)) ∧ (f.lo + f.width = W ∨ Covered fs (f.lo + f.width))) ∧
    (implicitFields W fs).Pairwise (fun a b => a.lo + a.width < b.lo) ∧
    ∀ i, Covered (implicitFields W fs) i ↔ i < W ∧ ¬ Covered fs i := by
  obtain ⟨h1, h2, h3⟩ := gapsFrom_spec (W := W) (fs := sortFields (fs.filter fun f => decide (1 ≤ f.width))) 0
    (sortFields_lo_le _) (by simp [mem_sortFields])
  simp only [covered_sortFields, covered_filter_width] at h1 h3
  refine ⟨fun f hf => ?_, h2, fun i => by rw [implicitFields, h3]; simp⟩
  obtain ⟨e, hw, -, hb⟩ := h1 f hf
  exact ⟨e, hw, hb⟩

/-- A field of a layout is declared or implicit. -/
theorem mem_layout_iff {W : Nat} {d : RegDecl} {f : FieldDecl} :
    f ∈ layout W d ↔ f ∈ d.fields ∨ f ∈ implicitFields W d.fields := by
  rw [layout, mem_sortFields, List.mem_append]

/-- A declared field is a field of the layout. -/
theorem mem_layout_of_declared {W : Nat} {d : RegDecl} {f : FieldDecl} (h : f ∈ d.fields) : f ∈ layout W d :=
  mem_layout_iff.2 (.inl h)

/-- A field of a layout is declared, or is the Reserved field of a gap (43_construction.md R231). -/
theorem mem_layout {W : Nat} {d : RegDecl} {f : FieldDecl} (h : f ∈ layout W d) :
    f ∈ d.fields ∨ ∃ lo width, f = gapField lo width :=
  (mem_layout_iff.1 h).imp id fun h => ⟨_, _, ((implicitFields_spec W d.fields).1 f h).1⟩

/-- The fields of a layout cover every bit of the register (43_construction.md R231). -/
theorem layout_covers {W : Nat} {d : RegDecl} {i : Nat} (hi : i < W) : Covered (layout W d) i := by
  rw [layout, covered_sortFields, covered_append, (implicitFields_spec W d.fields).2.2]
  tauto

/-- A storage field is declared. -/
theorem mem_storageFields {W : Nat} {d : RegDecl} {f : FieldDecl} :
    f ∈ storageFields W d ↔ f ∈ d.fields ∧ storageKind f.kind = true := by
  rw [storageFields, List.mem_filter]
  constructor
  · rintro ⟨hf, hs⟩
    rcases mem_layout hf with h | ⟨lo, width, rfl⟩
    · exact ⟨h, hs⟩
    · simp [gapField, storageKind] at hs
  · rintro ⟨hf, hs⟩
    exact ⟨mem_layout_of_declared hf, hs⟩

/-- Sorting fields that have bits and share none puts them one after the other. -/
theorem sortFields_ordered {fs : List FieldDecl} (hw : ∀ f ∈ fs, 1 ≤ f.width)
    (hp : fs.Pairwise (fun a b => fieldsOverlap a b = false)) :
    (sortFields fs).Pairwise (fun a b => a.lo + a.width ≤ b.lo) := by
  have hp : (sortFields fs).Pairwise (fun a b => fieldsOverlap a b = false) := by
    refine ((List.perm_insertionSort _ _).pairwise_iff ?_).2 hp
    intro a b hab; rw [fieldsOverlap_false_iff] at *; omega
  refine ((sortFields_lo_le fs).and hp).imp_of_mem ?_
  rintro a b ha hb ⟨h1, h2⟩
  rw [fieldsOverlap_false_iff] at h2
  have := hw a ((mem_sortFields _ _).1 ha)
  have := hw b ((mem_sortFields _ _).1 hb)
  omega

/-- An implicit field shares no bit with a declared one. -/
theorem implicit_apart {W : Nat} {fs : List FieldDecl} {f g : FieldDecl} (hf : f ∈ fs)
    (hg : g ∈ implicitFields W fs) : fieldsOverlap f g = false := by
  rw [fieldsOverlap, decide_eq_false_iff_not]
  intro h
  exact (((implicitFields_spec W fs).2.2 (max f.lo g.lo)).1 ⟨g, hg, by omega⟩).2 ⟨f, hf, by omega⟩

/-- The bounds of a field of a register. -/
theorem layout_bounds {sch : Schema} (h : schemaWellFormed sch = true) {d : RegDecl} (hd : d ∈ sch.regs)
    {f : FieldDecl} (hf : f ∈ layout (schemaWidth sch) d) : 1 ≤ f.width ∧ f.lo + f.width ≤ schemaWidth sch := by
  rcases mem_layout_iff.1 hf with hf | hf
  · exact declared_bounds h hd hf
  · have := (implicitFields_spec _ _).1 f hf
    exact ⟨this.2.1, this.2.2.1⟩

/-- The fields of a register lie apart, in ascending order (10_state.md R29). -/
theorem layout_ordered {sch : Schema} (h : schemaWellFormed sch = true) {d : RegDecl} (hd : d ∈ sch.regs) :
    (layout (schemaWidth sch) d).Pairwise (fun a b => a.lo + a.width ≤ b.lo) := by
  refine sortFields_ordered (fun f hf => (layout_bounds h hd ((mem_sortFields _ _).2 hf)).1) ?_
  refine List.pairwise_append.2 ⟨declared_pairwise h hd, ?_, fun f hf g hg => implicit_apart hf hg⟩
  refine (implicitFields_spec _ _).2.1.imp fun {a b} hab => ?_
  rw [fieldsOverlap_false_iff]
  omega

/-- The `lo`s of a register's fields rise strictly (10_state.md R29). -/
theorem layout_lo_lt {sch : Schema} (h : schemaWellFormed sch = true) {d : RegDecl} (hd : d ∈ sch.regs) :
    (layout (schemaWidth sch) d).Pairwise (fun a b => a.lo < b.lo) := by
  refine (layout_ordered h hd).imp_of_mem ?_
  intro a b ha _ hab
  have := layout_bounds h hd ha
  omega

theorem storage_lo_lt {sch : Schema} (h : schemaWellFormed sch = true) {d : RegDecl} (hd : d ∈ sch.regs) :
    (storageFields (schemaWidth sch) d).Pairwise (fun a b => a.lo < b.lo) := (layout_lo_lt h hd).filter _

/-- `lo` identifies a field within its register (10_state.md R29). -/
theorem layout_lo_inj {sch : Schema} (h : schemaWellFormed sch = true) {d : RegDecl} (hd : d ∈ sch.regs)
    {f g : FieldDecl} (hf : f ∈ layout (schemaWidth sch) d) (hg : g ∈ layout (schemaWidth sch) d)
    (e : f.lo = g.lo) : f = g := by
  by_contra hne
  have : Std.Symm (fun a b : FieldDecl => a.lo ≠ b.lo) := ⟨fun _ _ hab => hab.symm⟩
  exact ((layout_lo_lt h hd).imp (S := fun a b => a.lo ≠ b.lo) Nat.ne_of_lt).forall hf hg hne e

/-- A callback belongs to a storage field, also among the filled gaps. -/
theorem layout_callbacks_storage {sch : Schema} (h : schemaWellFormed sch = true) {d : RegDecl} (hd : d ∈ sch.regs)
    {f : FieldDecl} (hf : f ∈ layout (schemaWidth sch) d) (hs : storageKind f.kind = false) :
    f.wcb = none ∧ f.rcb = none := by
  rcases mem_layout hf with hm | ⟨lo, width, rfl⟩
  · exact callbacks_storage h hd hm hs
  · exact ⟨rfl, rfl⟩

/-! ### Slot resolution -/

/-- The register found at an offset is the one declared there (42_bus_ops.md R184). -/
theorem findReg_eq_some {sch : Schema} (h : schemaWellFormed sch = true) {off : Nat} {d : RegDecl} :
    findReg sch off = some d ↔ d ∈ sch.regs ∧ d.offset = off := by
  constructor
  · intro hf
    exact ⟨List.mem_of_find?_eq_some hf, by simpa using List.find?_some hf⟩
  · rintro ⟨hd, rfl⟩
    cases hf : findReg sch d.offset with
    | none => exact absurd hd (fun hm => by simpa using List.find?_eq_none.1 hf d hm)
    | some e =>
      have he : e.offset = d.offset := by simpa using List.find?_some hf
      rw [reg_unique h (List.mem_of_find?_eq_some hf) hd he]

theorem findReg_eq_none {sch : Schema} {off : Nat} :
    findReg sch off = none ↔ ∀ d ∈ sch.regs, d.offset ≠ off := by
  rw [findReg, List.find?_eq_none]; simp

/-- AccessCheck answers the register an access reaches (42_bus_ops.md R186). -/
theorem accessCheck_eq_ok (s : State) (off w : Nat) (d : RegDecl) :
    accessCheck s.bank.schema off w = .ok d ↔ Reaches s off w d := by
  rw [accessCheck, legalWidth]
  constructor
  · intro h
    split at h
    · cases h
    · rename_i h1
      split at h
      · cases h
      · rename_i h2
        split at h
        · cases h
        · rename_i h3
          split at h
          · cases h
          · rename_i e hf
            cases h
            obtain ⟨hd, ho⟩ := (findReg_eq_some s.bank.ok).1 hf
            exact ⟨by simpa using h1, by omega, by omega, hd, ho⟩
  · rintro ⟨h1, h2, h3, h4, h5⟩
    have hf := (findReg_eq_some s.bank.ok).2 ⟨h4, h5⟩
    rw [if_neg (by simp [h1]), if_neg (by omega), if_neg (by omega), slotBase, hf]

/-- A reached lane lies inside the native slot (20_memory.md R67). -/
theorem reaches_lane {s : State} {off w : Nat} {d : RegDecl} (h : Reaches s off w d) :
    off % s.bank.schema.native + w ≤ s.bank.schema.native := by
  have hn := native_pos s.bank.ok
  obtain ⟨q, hq⟩ := permitted_dvd s.bank.ok h.legal
  have hlt := Nat.mod_lt off hn
  have hw : 0 < w := by rcases (permitted_cases s.bank.ok h.legal).1 with e | e | e | e <;> omega
  have hm : off % s.bank.schema.native % w = 0 := by
    rw [Nat.mod_mod_of_dvd _ ⟨q, hq⟩]; exact h.aligned
  obtain ⟨m, hm⟩ := Nat.dvd_of_mod_eq_zero hm
  rw [hm] at hlt ⊢
  rw [hq] at hlt ⊢
  have : m < q := Nat.lt_of_mul_lt_mul_left hlt
  calc w * m + w = w * (m + 1) := by rw [Nat.mul_succ]
    _ ≤ w * q := Nat.mul_le_mul_left _ this

end Sys2Proof.Machine
end

