-- ==== Sys2Proof/Laws/State.lean ====
section
/-! SUPPORT. One lemma per field per update of the state, true by rfl. -/

namespace Sys2Proof.Machine

/-! ### Answering and absorbing -/

@[simp] theorem answer_bank (s : State) (v : Word) (vals : Store) (ev : List Event) :
    (s.answer v vals ev).bank = s.bank := rfl
@[simp] theorem answer_vals (s : State) (v : Word) (vals : Store) (ev : List Event) :
    (s.answer v vals ev).vals = vals := rfl
@[simp] theorem answer_stream (s : State) (v : Word) (vals : Store) (ev : List Event) :
    (s.answer v vals ev).stream = s.stream := rfl
@[simp] theorem answer_replies (s : State) (v : Word) (vals : Store) (ev : List Event) :
    (s.answer v vals ev).replies = s.replies ++ [⟨v, ev⟩] := rfl
@[simp] theorem absorb_bank (s : State) (d : Diag) : (s.absorb d).bank = s.bank := rfl
@[simp] theorem absorb_vals (s : State) (d : Diag) : (s.absorb d).vals = s.vals := rfl
@[simp] theorem absorb_stream (s : State) (d : Diag) : (s.absorb d).stream = s.stream := rfl
@[simp] theorem absorb_replies (s : State) (d : Diag) :
    (s.absorb d).replies = s.replies ++ [⟨0, [.diag d]⟩] := rfl

/-! ### Requests -/

@[simp] theorem request_bank (s : State) (q : Record) : (s.request q).bank = s.bank := rfl
@[simp] theorem request_vals (s : State) (q : Record) : (s.request q).vals = s.vals := rfl
@[simp] theorem request_stream (s : State) (q : Record) : (s.request q).stream = q :: s.stream := rfl
@[simp] theorem request_replies (s : State) (q : Record) : (s.request q).replies = s.replies := rfl

/-! ### A bank in its reset state -/

@[simp] theorem ofBank_bank (b : Bank) : (State.ofBank b).bank = b := rfl
@[simp] theorem ofBank_vals (b : Bank) : (State.ofBank b).vals = powerOnVals b.schema := rfl
@[simp] theorem ofBank_stream (b : Bank) : (State.ofBank b).stream = [] := rfl
@[simp] theorem ofBank_replies (b : Bank) : (State.ofBank b).replies = [] := rfl

/-! ### An operation in progress -/

@[simp] theorem emit_vals (c : Ctx) (e : Event) : (c.emit e).vals = c.vals := rfl
@[simp] theorem emit_events (c : Ctx) (e : Event) : (c.emit e).events = c.events ++ [e] := rfl

/-! ### Reading through the state -/

theorem field_def (s : State) (d : RegDecl) (f : FieldDecl) : s.field d f = s.vals.val d.offset f.lo := rfl
theorem fields_def (s : State) (d : RegDecl) : s.fields d = layout (schemaWidth s.bank.schema) d := rfl
theorem storage_def (s : State) (d : RegDecl) : s.storage d = storageFields (schemaWidth s.bank.schema) d := rfl

end Sys2Proof.Machine
end

