-- ==== Sys2Proof/Laws/Store.lean ====
section
/-! SUPPORT. The stored values: reading after writing, and the canonical form, which every operation keeps. -/

namespace Sys2Proof.Machine

@[simp] theorem cell_key_mk (reg lo : Nat) (v : Word) : Cell.key ⟨reg, lo, v⟩ = (reg, lo) := rfl

theorem keyLt_iff (a b : Nat × Nat) : keyLt a b = true ↔ a.1 < b.1 ∨ (a.1 = b.1 ∧ a.2 < b.2) := by
  simp [keyLt]

theorem keyLt_irrefl (a : Nat × Nat) : ¬ keyLt a a = true := by
  rw [keyLt_iff]; omega

theorem keyLt_trans {a b c : Nat × Nat} (h : keyLt a b = true) (k : keyLt b c = true) : keyLt a c = true := by
  rw [keyLt_iff] at *; omega

theorem keyLt_total {a b : Nat × Nat} (h : a ≠ b) (k : ¬ keyLt a b = true) : keyLt b a = true := by
  rw [keyLt_iff] at *
  have : ¬ (a.1 = b.1 ∧ a.2 = b.2) := fun e => h (Prod.ext e.1 e.2)
  omega

/-! ### Reading and writing -/

@[simp] theorem val_put_self (vals : Store) (reg lo : Nat) (v : Word) : (vals.put reg lo v).val reg lo = v := by
  induction vals with
  | nil => simp [Store.put, Store.val]
  | cons c cs ih =>
    rw [Store.put]
    split
    · simp [Store.val]
    · split
      · simp [Store.val]
      · rename_i h _; simp [Store.val, h, ih]

theorem val_put_of_ne (vals : Store) {reg lo reg' lo' : Nat} (v : Word) (h : (reg', lo') ≠ (reg, lo)) :
    (vals.put reg lo v).val reg' lo' = vals.val reg' lo' := by
  induction vals with
  | nil => simp [Store.put, Store.val, h.symm]
  | cons c cs ih =>
    rw [Store.put]
    split
    · rename_i hk; simp [Store.val, hk, h.symm]
    · split
      · simp [Store.val, h.symm]
      · simp [Store.val, ih]

/-- Reading any place after a write. -/
theorem val_put (vals : Store) (reg lo reg' lo' : Nat) (v : Word) :
    (vals.put reg lo v).val reg' lo' = if (reg', lo') = (reg, lo) then v else vals.val reg' lo' := by
  split
  · rename_i h; cases h; exact val_put_self ..
  · rename_i h; exact val_put_of_ne vals v h

/-! ### The canonical form -/

theorem store_wf_iff (vals : Store) : vals.wf = true ↔ (vals.map Cell.key).Pairwise (keyLt · · = true) := by
  induction vals with
  | nil => simp [Store.wf]
  | cons c cs ih =>
    cases cs with
    | nil => simp [Store.wf]
    | cons d ds =>
      have hc : (c :: d :: ds).map Cell.key = c.key :: (d :: ds).map Cell.key := rfl
      rw [Store.wf, Bool.and_eq_true, ih, hc, List.pairwise_cons]
      refine and_congr_left fun hp => ?_
      constructor
      · intro h k hk
        rw [List.map_cons, List.mem_cons] at hk
        rcases hk with rfl | hk
        · exact h
        · rw [List.map_cons, List.pairwise_cons] at hp
          exact keyLt_trans h (hp.1 k hk)
      · intro h; exact h _ (by simp)

theorem keys_put_subset (vals : Store) (reg lo : Nat) (v : Word) (k : Nat × Nat) :
    k ∈ (vals.put reg lo v).map Cell.key ↔ k = (reg, lo) ∨ k ∈ vals.map Cell.key := by
  induction vals with
  | nil => simp [Store.put]
  | cons c cs ih =>
    rw [Store.put]
    split
    · rename_i h; simp [h]
    · split
      · simp
      · rw [List.map_cons, List.mem_cons, ih, List.map_cons, List.mem_cons]; tauto

/-- A write keeps the canonical form. -/
theorem store_wf_put {vals : Store} (h : vals.wf = true) (reg lo : Nat) (v : Word) :
    (vals.put reg lo v).wf = true := by
  rw [store_wf_iff] at *
  induction vals with
  | nil => simp [Store.put]
  | cons c cs ih =>
    rw [List.map_cons, List.pairwise_cons] at h
    rw [Store.put]
    split
    · rename_i hk
      rw [List.map_cons, List.pairwise_cons]
      rw [hk] at h; exact h
    · rename_i hne
      split
      · rename_i hlt
        rw [List.map_cons, List.map_cons, List.pairwise_cons, List.pairwise_cons]
        refine ⟨?_, h⟩
        intro k hk
        rcases List.mem_cons.1 hk with rfl | hk
        · exact hlt
        · exact keyLt_trans hlt (h.1 k hk)
      · rename_i hnlt
        rw [List.map_cons, List.pairwise_cons]
        refine ⟨?_, ih h.2⟩
        intro k hk
        rcases (keys_put_subset cs reg lo v k).1 hk with rfl | hk
        · exact keyLt_total (fun e => hne e.symm) hnlt
        · exact h.1 k hk

/-- A write to a listed place changes no key. -/
theorem keys_put_of_mem {vals : Store} (h : vals.wf = true) {reg lo : Nat} (v : Word)
    (hk : (reg, lo) ∈ vals.map Cell.key) : (vals.put reg lo v).map Cell.key = vals.map Cell.key := by
  rw [store_wf_iff] at h
  induction vals with
  | nil => simp at hk
  | cons c cs ih =>
    rw [List.map_cons, List.pairwise_cons] at h
    rw [Store.put]
    split
    · rename_i e; simp [e]
    · rename_i hne
      have hm : (reg, lo) ∈ cs.map Cell.key := by
        rcases List.mem_cons.1 hk with e | e
        · exact absurd e.symm hne
        · exact e
      rw [if_neg]
      · rw [List.map_cons, ih h.2 hm, List.map_cons]
      · intro hlt
        exact keyLt_irrefl _ (keyLt_trans hlt (h.1 _ hm))

/-- Two canonical stores with the same keys and the same values are equal. -/
theorem store_ext {a b : Store} (ha : a.wf = true) (hk : a.map Cell.key = b.map Cell.key)
    (hv : ∀ k ∈ a.map Cell.key, a.val k.1 k.2 = b.val k.1 k.2) : a = b := by
  rw [store_wf_iff] at ha
  induction a generalizing b with
  | nil => simpa using hk.symm
  | cons c cs ih =>
    cases b with
    | nil => simp at hk
    | cons d ds =>
      rw [List.map_cons, List.map_cons, List.cons.injEq] at hk
      rw [List.map_cons, List.pairwise_cons] at ha
      obtain ⟨cr, cl, cv⟩ := c
      obtain ⟨dr, dl, dv⟩ := d
      simp only [cell_key_mk] at hk ha hv
      obtain ⟨hk1, hk2⟩ := hk
      cases hk1
      have hvv := hv (cr, cl) (by simp)
      simp only [Store.val, cell_key_mk, if_true] at hvv
      subst hvv
      rw [ih ha.2 hk2 (fun k hm => ?_)]
      have hne : ¬ ((cr, cl) = k) := fun e => keyLt_irrefl _ (by have := ha.1 k hm; rwa [e] at this)
      have := hv k (by simp [hm])
      simpa [Store.val, hne] using this

/-! ### Reset -/

/-- What RegReset leaves at any place: the reset slice of the last listed field there (41_register_ops.md R166). -/
theorem val_regReset_of_not_mem (d : RegDecl) (fs : List FieldDecl) (vals : Store) (reg lo : Nat)
    (h : reg ≠ d.offset ∨ ∀ f ∈ fs, f.lo ≠ lo) : (regReset d fs vals).val reg lo = vals.val reg lo := by
  induction fs generalizing vals with
  | nil => rfl
  | cons f fs ih =>
    rw [regReset, ih]
    · refine val_put_of_ne vals _ ?_
      intro e; cases e
      rcases h with h | h
      · exact h rfl
      · exact h f (by simp) rfl
    · rcases h with h | h
      · exact .inl h
      · exact .inr fun g hg => h g (by simp [hg])

theorem val_regReset_of_mem (d : RegDecl) (fs : List FieldDecl) (vals : Store) {f : FieldDecl} (hf : f ∈ fs)
    (hd : fs.Pairwise (fun a b => a.lo ≠ b.lo)) : (regReset d fs vals).val d.offset f.lo = resetSlice d f := by
  induction fs generalizing vals with
  | nil => simp at hf
  | cons g gs ih =>
    rw [List.pairwise_cons] at hd
    rw [regReset]
    rcases List.mem_cons.1 hf with rfl | hf
    · rw [val_regReset_of_not_mem]
      · exact val_put_self ..
      · exact .inr fun g hg => (hd.1 g hg).symm
    · exact ih _ hf hd.2

theorem store_wf_regReset (d : RegDecl) (fs : List FieldDecl) {vals : Store} (h : vals.wf = true) :
    (regReset d fs vals).wf = true := by
  induction fs generalizing vals with
  | nil => exact h
  | cons f fs ih => exact ih (store_wf_put h ..)

theorem store_wf_resetRegs (W : Nat) (ds : List RegDecl) {vals : Store} (h : vals.wf = true) :
    (resetRegs W ds vals).wf = true := by
  induction ds generalizing vals with
  | nil => exact h
  | cons d ds ih => exact ih (store_wf_regReset d _ h)

/-- A bank starts with its store in canonical form. -/
theorem store_wf_powerOn (sch : Schema) : (powerOnVals sch).wf = true := store_wf_resetRegs _ _ rfl

end Sys2Proof.Machine
end

