-- ==== Sys2Proof/Laws/Ops.lean ====
section
/-! SUPPORT. For each shared operation, once, everything it can do: which places it changes, what it keeps, which
events it emits, and when it refuses. -/

namespace Sys2Proof.Machine

/-! ### What an operation on one register can change -/

/-- From store `a` to store `b`, only stored values of register `reg` change; no ReadOnlyConstant field does
(10_state.md R33); values keep their widths, and the keys stay. -/
structure ChangesOnly (reg : Nat) (storage : List FieldDecl) (a b : Store) : Prop where
  elsewhere : ∀ r lo, (r ≠ reg ∨ ∀ g ∈ storage, g.lo ≠ lo) → b.val r lo = a.val r lo
  constants : ∀ g ∈ storage, g.mode = .readOnlyConstant → b.val reg g.lo = a.val reg g.lo
  fits : (∀ g ∈ storage, (a.val reg g.lo).toNat < 2 ^ g.width) →
    ∀ g ∈ storage, (b.val reg g.lo).toNat < 2 ^ g.width
  keys : a.wf = true → (∀ g ∈ storage, (reg, g.lo) ∈ a.map Cell.key) → b.map Cell.key = a.map Cell.key

theorem changesOnly_refl (reg : Nat) (storage : List FieldDecl) (a : Store) : ChangesOnly reg storage a a :=
  ⟨fun _ _ _ => rfl, fun _ _ _ => rfl, fun h => h, fun _ _ => rfl⟩

theorem changesOnly_trans {reg : Nat} {storage : List FieldDecl} {a b c : Store}
    (h : ChangesOnly reg storage a b) (k : ChangesOnly reg storage b c) : ChangesOnly reg storage a c where
  elsewhere r lo e := (k.elsewhere r lo e).trans (h.elsewhere r lo e)
  constants g hg hm := (k.constants g hg hm).trans (h.constants g hg hm)
  fits e := k.fits (h.fits e)
  keys hw hm := by
    have e := h.keys hw hm
    have hb : b.wf = true := by rw [store_wf_iff, e, ← store_wf_iff]; exact hw
    exact (k.keys hb (by rw [e]; exact hm)).trans e

/-- Storing a value of the field's width in a storage field that is not ReadOnlyConstant. -/
theorem changesOnly_put {reg : Nat} {storage : List FieldDecl} (hd : storage.Pairwise (fun a b => a.lo < b.lo))
    {f : FieldDecl} (hf : f ∈ storage) (hm : f.mode ≠ .readOnlyConstant) (vals : Store) {v : Word}
    (hv : (∀ g ∈ storage, (vals.val reg g.lo).toNat < 2 ^ g.width) → v.toNat < 2 ^ f.width) :
    ChangesOnly reg storage vals (vals.put reg f.lo v) where
  elsewhere r lo e := by
    refine val_put_of_ne vals _ fun h => ?_
    cases h
    exact e.elim (fun h => h rfl) fun h => h f hf rfl
  constants g hg hc := by
    refine val_put_of_ne vals _ fun h => ?_
    have hlo : g.lo = f.lo := by injection h
    have : Std.Symm (fun a b : FieldDecl => a.lo ≠ b.lo) := ⟨fun _ _ hab => hab.symm⟩
    have hne : g ≠ f := fun e => hm (e ▸ hc)
    exact (hd.imp (S := fun a b => a.lo ≠ b.lo) Nat.ne_of_lt).forall hg hf hne hlo
  fits hall g hg := by
    rw [val_put]
    split
    · rename_i h
      have hlo : g.lo = f.lo := by injection h
      have : Std.Symm (fun a b : FieldDecl => a.lo ≠ b.lo) := ⟨fun _ _ hab => hab.symm⟩
      by_cases hne : g = f
      · rw [hne]; exact hv hall
      · exact absurd hlo ((hd.imp (S := fun a b => a.lo ≠ b.lo) Nat.ne_of_lt).forall hg hf hne)
    · exact hall g hg
  keys hw hk := keys_put_of_mem hw v (hk f hf)

/-! ### ApplyView (40_field_ops.md R142) -/

/-- The places of fields outside the list keep their values. -/
theorem applyView_elsewhere {reg : Nat} {u : View} {gs : List FieldDecl} {vals vals' : Store}
    (h : applyView reg u gs vals = .ok vals') (r lo : Nat) (hr : r ≠ reg ∨ ∀ g ∈ gs, g.lo ≠ lo) :
    vals'.val r lo = vals.val r lo := by
  induction gs generalizing vals with
  | nil => rw [applyView] at h; cases h; rfl
  | cons g gs ih =>
    have hr' : r ≠ reg ∨ ∀ g ∈ gs, g.lo ≠ lo := hr.imp id fun k g hg => k g (by simp [hg])
    rw [applyView] at h
    split at h
    · exact ih h hr'
    · split at h
      · cases h
      · rw [ih h hr']
        refine val_put_of_ne vals _ fun e => ?_
        cases e
        exact hr.elim (fun k => k rfl) fun k => k g (by simp) rfl

/-- Every field of the list takes its component of the view, verbatim; a ReadOnlyConstant field had it before. -/
theorem applyView_values {reg : Nat} {u : View} {gs : List FieldDecl} {vals vals' : Store}
    (hd : gs.Pairwise (fun a b => a.lo < b.lo)) (h : applyView reg u gs vals = .ok vals') :
    ∀ g ∈ gs, vals'.val reg g.lo = viewValue g.lo u ∧
      (g.mode = .readOnlyConstant → viewValue g.lo u = vals.val reg g.lo) := by
  induction gs generalizing vals with
  | nil => simp
  | cons f fs ih =>
    rw [List.pairwise_cons] at hd
    have hne : ∀ g ∈ fs, g.lo ≠ f.lo := fun g hg => Nat.ne_of_gt (hd.1 g hg)
    intro g hg
    rw [applyView] at h
    split at h
    · rename_i he
      rcases List.mem_cons.1 hg with rfl | hg
      · exact ⟨(applyView_elsewhere h reg g.lo (.inr hne)).trans he.symm, fun _ => he⟩
      · exact ih hd.2 h g hg
    · split at h
      · cases h
      · rename_i hm
        rcases List.mem_cons.1 hg with rfl | hg
        · refine ⟨?_, fun e => absurd e hm⟩
          rw [applyView_elsewhere h reg g.lo (.inr hne), val_put_self]
        · have := ih hd.2 h g hg
          rwa [val_put_of_ne vals _ (fun e => hne g hg (by injection e))] at this

/-- ApplyView refuses only with CallbackChangesConstant. -/
theorem applyView_error {reg : Nat} {u : View} {gs : List FieldDecl} {vals : Store} {e : Refusal}
    (h : applyView reg u gs vals = .error e) : e = .callbackChangesConstant := by
  induction gs generalizing vals with
  | nil => cases h
  | cons g gs ih =>
    rw [applyView] at h
    split at h
    · exact ih h
    · split at h
      · cases h; rfl
      · exact ih h

/-- ApplyView answers exactly when no ReadOnlyConstant field's component differs. -/
theorem applyView_isOk_iff {reg : Nat} {u : View} {gs : List FieldDecl} {vals : Store}
    (hd : gs.Pairwise (fun a b => a.lo < b.lo)) :
    (∃ vals', applyView reg u gs vals = .ok vals') ↔
      ∀ g ∈ gs, g.mode = .readOnlyConstant → viewValue g.lo u = vals.val reg g.lo := by
  constructor
  · rintro ⟨vals', h⟩ g hg hm
    exact (applyView_values hd h g hg).2 hm
  · intro h
    induction gs generalizing vals with
    | nil => exact ⟨vals, rfl⟩
    | cons f fs ih =>
      rw [List.pairwise_cons] at hd
      rw [applyView]
      split
      · exact ih hd.2 fun g hg => h g (by simp [hg])
      · rename_i he
        have hm : f.mode ≠ .readOnlyConstant := fun e => he (h f (by simp) e)
        rw [if_neg hm]
        refine ih hd.2 fun g hg hc => ?_
        rw [val_put_of_ne vals _ (fun e => Nat.ne_of_gt (hd.1 g hg) (by injection e))]
        exact h g (by simp [hg]) hc

/-! ### Callbacks (40_field_ops.md R135..R146) -/

section
variable {reg : Nat} {storage : List FieldDecl} (hd : storage.Pairwise (fun a b => a.lo < b.lo))
include hd

/-- What a callback can change: storage fields of its own register (40_field_ops.md R144). -/
theorem runCallback_changesOnly {p : Program} {old new : Word} {vals vals' : Store}
    (h : runCallback reg storage p old new vals = .ok vals') : ChangesOnly reg storage vals vals' := by
  rw [runCallback] at h
  have hval := applyView_values hd h
  refine ⟨fun r lo hr => applyView_elsewhere h r lo hr, ?_, ?_, ?_⟩
  · intro g hg hm
    rw [(hval g hg).1, (hval g hg).2 hm]
  · intro hall g hg
    rw [(hval g hg).1]
    refine viewValue_lt (viewFits_runProgram old new p (viewFits_viewOf hall)) ?_
      (List.mem_map_of_mem (f := fun f : FieldDecl => (f.lo, f.width)) hg)
    exact List.pairwise_map.2 (hd.imp fun e => Nat.ne_of_lt e)
  · intro hw hk
    suffices ∀ gs, (∀ g ∈ gs, g ∈ storage) → ∀ vals, vals.wf = true →
        (∀ g ∈ storage, (reg, g.lo) ∈ vals.map Cell.key) → ∀ u vals', applyView reg u gs vals = .ok vals' →
        vals'.map Cell.key = vals.map Cell.key by
      exact this storage (fun _ hg => hg) vals hw hk _ _ h
    intro gs
    induction gs with
    | nil => intro _ vals _ _ u vals' h; cases h; rfl
    | cons g gs ih =>
      intro hs vals hw hk u vals' h
      rw [applyView] at h
      split at h
      · exact ih (fun g hg => hs g (by simp [hg])) vals hw hk u vals' h
      · split at h
        · cases h
        · have hkeys := keys_put_of_mem hw (viewValue g.lo u) (hk g (hs g (by simp)))
          have hw' := store_wf_put hw reg g.lo (viewValue g.lo u)
          rw [ih (fun g hg => hs g (by simp [hg])) _ hw' (by rw [hkeys]; exact hk) u vals' h, hkeys]

/-- A callback leaves each storage field of its register as its program says (40_field_ops.md R138, R142). -/
theorem runCallback_values {p : Program} {old new : Word} {vals vals' : Store}
    (h : runCallback reg storage p old new vals = .ok vals') {g : FieldDecl} (hg : g ∈ storage) :
    vals'.val reg g.lo = viewValue g.lo (runProgram old new p (viewOf reg vals storage)) :=
  (applyView_values hd h g hg).1

/-- A callback that keeps a component leaves the field as it was. -/
theorem runCallback_keeps {p : Program} {old new : Word} {vals vals' : Store}
    (h : runCallback reg storage p old new vals = .ok vals') {g : FieldDecl} (hg : g ∈ storage)
    (hk : callbackKeeps p g.lo) : vals'.val reg g.lo = vals.val reg g.lo := by
  rw [runCallback_values hd h hg, hk, viewValue_viewOf reg vals hg]

/-- A callback that spares the constants is never refused. -/
theorem runCallback_isOk {p : Program} (hp : sparesConstants storage p) (old new : Word) (vals : Store) :
    ∃ vals', runCallback reg storage p old new vals = .ok vals' := by
  refine (applyView_isOk_iff hd).2 fun g hg hm => ?_
  rw [hp g hg hm, viewValue_viewOf reg vals hg]

omit hd in
theorem runCallback_error {p : Program} {old new : Word} {vals : Store} {e : Refusal}
    (h : runCallback reg storage p old new vals = .error e) : e = .callbackChangesConstant := applyView_error h

omit hd in
/-- What firing a write callback can do: nothing without one; else the event and the callback's effect. -/
theorem fireWcb_ok {f : FieldDecl} {o n : Word} {c c' : Ctx} (h : fireWcb reg storage f o n c = .ok c') :
    (f.wcb = none ∧ c' = c) ∨ ∃ p vals, f.wcb = some p ∧ runCallback reg storage p o n c.vals = .ok vals ∧
      c' = ⟨vals, c.events ++ [.cbWrite reg f.lo o n]⟩ := by
  rw [fireWcb] at h
  split at h
  · rename_i hw; cases h; exact .inl ⟨hw, rfl⟩
  · rename_i p hw
    split at h
    · rename_i vals hr; cases h; exact .inr ⟨p, vals, hw, hr, rfl⟩
    · cases h

omit hd in
/-- What firing a read callback can do. -/
theorem fireRcb_ok {f : FieldDecl} {c c' : Ctx} (h : fireRcb reg storage f c = .ok c') :
    (f.rcb = none ∧ c' = c) ∨ ∃ p vals, f.rcb = some p ∧
      runCallback reg storage p (c.vals.val reg f.lo) (c.vals.val reg f.lo) c.vals = .ok vals ∧
      c' = ⟨vals, c.events ++ [.cbRead reg f.lo (c.vals.val reg f.lo)]⟩ := by
  rw [fireRcb] at h
  split at h
  · rename_i hw; cases h; exact .inl ⟨hw, rfl⟩
  · rename_i p hw
    split at h
    · rename_i vals hr; cases h; exact .inr ⟨p, vals, hw, hr, rfl⟩
    · cases h

omit hd in
theorem fireWcb_error {f : FieldDecl} {o n : Word} {c : Ctx} {e : Refusal}
    (h : fireWcb reg storage f o n c = .error e) : e = .callbackChangesConstant := by
  rw [fireWcb] at h
  split at h
  · cases h
  · split at h
    · cases h
    · rename_i hr; cases h; exact runCallback_error hr

omit hd in
theorem fireRcb_error {f : FieldDecl} {c : Ctx} {e : Refusal}
    (h : fireRcb reg storage f c = .error e) : e = .callbackChangesConstant := by
  rw [fireRcb] at h
  split at h
  · cases h
  · split at h
    · cases h
    · rename_i hr; cases h; exact runCallback_error hr

/-! ### RegRead (41_register_ops.md R160) -/

omit hd in
/-- One turn of the read loop: the field's TaggedRead, then its callback, then the later fields. -/
theorem readFields_cons_ok {f : FieldDecl} {fs : List FieldDecl} {c c' : Ctx}
    (h : readFields reg storage (f :: fs) c = .ok c') :
    ∃ c1, fireRcb reg storage f ⟨c.vals, c.events ++ taggedEvents reg f⟩ = .ok c1 ∧
      readFields reg storage fs c1 = .ok c' := by
  rw [readFields] at h
  split at h
  · rename_i c1 hf; exact ⟨c1, hf, h⟩
  · cases h

/-- What the read loop can change. -/
theorem readFields_changesOnly {fs : List FieldDecl} {c c' : Ctx} (h : readFields reg storage fs c = .ok c') :
    ChangesOnly reg storage c.vals c'.vals := by
  induction fs generalizing c with
  | nil => cases h; exact changesOnly_refl ..
  | cons f fs ih =>
    rw [readFields] at h
    split at h
    · rename_i c1 hf
      refine changesOnly_trans ?_ (ih h)
      rcases fireRcb_ok hf with ⟨_, rfl⟩ | ⟨p, vals, _, hr, rfl⟩
      · exact changesOnly_refl ..
      · exact runCallback_changesOnly hd hr
    · cases h

/-- The read loop answers when no read callback changes a constant. -/
theorem readFields_isOk {fs : List FieldDecl} (hp : ∀ f ∈ fs, ∀ p, f.rcb = some p → sparesConstants storage p)
    (c : Ctx) : ∃ c', readFields reg storage fs c = .ok c' := by
  induction fs generalizing c with
  | nil => exact ⟨c, rfl⟩
  | cons f fs ih =>
    rw [readFields]
    split
    · rename_i c1 hf
      exact ih (fun g hg => hp g (by simp [hg])) c1
    · rename_i e hf
      rw [fireRcb] at hf
      split at hf
      · cases hf
      · rename_i p hw
        obtain ⟨vals, hr⟩ := runCallback_isOk (reg := reg) hd (hp f (by simp) p hw)
          (c.vals.val reg f.lo) (c.vals.val reg f.lo) c.vals
        rw [hr] at hf; cases hf

omit hd in
theorem readFields_error {fs : List FieldDecl} {c : Ctx} {e : Refusal} (h : readFields reg storage fs c = .error e) :
    e = .callbackChangesConstant := by
  induction fs generalizing c with
  | nil => cases h
  | cons f fs ih =>
    rw [readFields] at h
    split at h
    · exact ih h
    · rename_i hf; cases h; exact fireRcb_error hf

/-! ### FieldWrite and RegWrite (40_field_ops.md R123, 41_register_ops.md R162) -/

omit hd in
/-- Only a write of a writable field commits a value (40_field_ops.md R127, R132, R133). -/
theorem writeEffect_stored {f : FieldDecl} {o vin fm : Word} :
    ((writeEffect f o vin fm).stored ≠ none) ↔ writableField f = true := by
  rw [writeEffect, writableField]
  cases f.kind <;> cases f.mode <;> simp [storageKind] <;> split <;> simp

omit hd in
theorem writableField_mode {f : FieldDecl} (h : writableField f = true) : f.mode ≠ .readOnlyConstant := by
  intro e; simp [writableField, e] at h

omit hd in
theorem writableField_storage {f : FieldDecl} (h : writableField f = true) : storageKind f.kind = true := by
  rw [writableField, Bool.and_eq_true] at h; exact h.1

omit hd in
/-- A committed value has the field's width. -/
theorem writeEffect_fits {f : FieldDecl} {o vin fm n : Word} (h : (writeEffect f o vin fm).stored = some n)
    (ho : o.toNat < 2 ^ f.width) (hv : vin.toNat < 2 ^ f.width)
    (hp : f.kind = .enum → ∀ v, f.policy = .clamp v → v < 2 ^ f.width) : n.toNat < 2 ^ f.width := by
  have hc : (mergedCandidate o vin fm).toNat < 2 ^ f.width :=
    fits_or (fits_and_left _ hv) (fits_and_left _ ho)
  rw [writeEffect] at h
  have key : ∀ m : Mode, (match m with
      | .read | .readOnlyConstant => (⟨some (.readOnlyWrite, mergedCandidate o vin fm), none⟩ : FieldEffect)
      | .writeOneToClear => ⟨none, some (o &&& ~~~ (vin &&& fm))⟩
      | .write | .readWrite =>
        if f.kind = Kind.enum ∧ (mergedCandidate o vin fm).toNat ∉ f.valid then
          ⟨some (.invalidEnum, mergedCandidate o vin fm), some (policyValue f.policy o (mergedCandidate o vin fm))⟩
        else ⟨none, some (mergedCandidate o vin fm)⟩).stored = some n → n.toNat < 2 ^ f.width := by
    intro m hm
    cases m
    case read => cases hm
    case readOnlyConstant => cases hm
    case writeOneToClear => cases hm; exact fits_and_left _ ho
    all_goals
      dsimp only at hm
      split at hm
      · rename_i he
        cases hm
        cases hpol : f.policy with
        | reject => exact ho
        | acceptVerbatim => exact hc
        | clamp v =>
          have := hp he.1 v hpol
          rw [policyValue, BitVec.toNat_ofNat]
          exact lt_of_le_of_lt (Nat.mod_le ..) this
      · cases hm; exact hc
  cases hk : f.kind <;> rw [hk] at h
  case reserved => cases h
  case tagged => cases h
  all_goals exact key f.mode (by rw [hk]; exact h)

omit hd in
/-- What FieldWrite does: the diagnostic; for a writable field the commit and then the callback. -/
theorem fieldWrite_ok {f : FieldDecl} {v M : Word} {c c' : Ctx} (h : fieldWrite reg storage f v M c = .ok c') :
    ((fieldEffect reg c.vals f v M).stored = none ∧
      c' = ⟨c.vals, c.events ++ effectEvents reg f (fieldEffect reg c.vals f v M)⟩) ∨
    ∃ n, (fieldEffect reg c.vals f v M).stored = some n ∧
      fireWcb reg storage f (c.vals.val reg f.lo) n
        ⟨c.vals.put reg f.lo n, c.events ++ effectEvents reg f (fieldEffect reg c.vals f v M)⟩ = .ok c' := by
  rw [fieldWrite] at h
  split at h
  · rename_i hs; cases h; exact .inl ⟨hs, rfl⟩
  · rename_i n hs; exact .inr ⟨n, hs, h⟩

omit hd in
/-- One turn of the write loop: a processed field is written, any other is passed over; then the later fields. -/
theorem writeFields_cons_ok {f : FieldDecl} {fs : List FieldDecl} {v M : Word} {c c' : Ctx}
    (h : writeFields reg storage v M (f :: fs) c = .ok c') :
    (processed M f = false ∧ writeFields reg storage v M fs c = .ok c') ∨
    ∃ c1, processed M f = true ∧ fieldWrite reg storage f v M c = .ok c1 ∧
      writeFields reg storage v M fs c1 = .ok c' := by
  rw [writeFields] at h
  split at h
  · rename_i hp
    split at h
    · rename_i c1 hw; exact .inr ⟨c1, hp, hw, h⟩
    · cases h
  · rename_i hp; exact .inl ⟨by simpa using hp, h⟩

/-- The clamp targets of a register's Enum fields fit their fields. -/
def clampsFit (storage : List FieldDecl) : Prop :=
  ∀ f ∈ storage, f.kind = Kind.enum → ∀ v, f.policy = Policy.clamp v → v < 2 ^ f.width

/-- What FieldWrite can change. -/
theorem fieldWrite_changesOnly (hp : clampsFit storage) {f : FieldDecl}
    (hf : writableField f = true → f ∈ storage) {v M : Word} {c c' : Ctx}
    (h : fieldWrite reg storage f v M c = .ok c') : ChangesOnly reg storage c.vals c'.vals := by
  rcases fieldWrite_ok h with ⟨_, rfl⟩ | ⟨n, hs, hw⟩
  · exact changesOnly_refl ..
  · have hwr : writableField f = true := by
      refine (writeEffect_stored (o := c.vals.val reg f.lo) (vin := slice v f.lo f.width)
        (fm := slice M f.lo f.width)).1 ?_
      rw [fieldEffect] at hs; rw [hs]; exact Option.some_ne_none n
    have hm := hf hwr
    have hput : ChangesOnly reg storage c.vals (c.vals.put reg f.lo n) := by
      refine changesOnly_put hd hm (writableField_mode hwr) _ fun hall => ?_
      exact writeEffect_fits hs (hall f hm) (slice_lt ..) (hp f hm)
    rcases fireWcb_ok hw with ⟨_, rfl⟩ | ⟨p, vals, _, hr, rfl⟩
    · exact hput
    · exact changesOnly_trans hput (runCallback_changesOnly hd hr)

/-- What the write loop can change. -/
theorem writeFields_changesOnly (hp : clampsFit storage) {fs : List FieldDecl}
    (hf : ∀ f ∈ fs, writableField f = true → f ∈ storage) {v M : Word} {c c' : Ctx}
    (h : writeFields reg storage v M fs c = .ok c') : ChangesOnly reg storage c.vals c'.vals := by
  induction fs generalizing c with
  | nil => cases h; exact changesOnly_refl ..
  | cons f fs ih =>
    have hf' : ∀ g ∈ fs, writableField g = true → g ∈ storage := fun g hg => hf g (by simp [hg])
    rw [writeFields] at h
    split at h
    · split at h
      · rename_i c1 hw
        exact changesOnly_trans (fieldWrite_changesOnly hd hp (hf f (by simp)) hw) (ih hf' h)
      · cases h
    · exact ih hf' h

omit hd in
theorem fieldWrite_error {f : FieldDecl} {v M : Word} {c : Ctx} {e : Refusal}
    (h : fieldWrite reg storage f v M c = .error e) : e = .callbackChangesConstant := by
  rw [fieldWrite] at h
  split at h
  · cases h
  · exact fireWcb_error h

omit hd in
theorem writeFields_error {fs : List FieldDecl} {v M : Word} {c : Ctx} {e : Refusal}
    (h : writeFields reg storage v M fs c = .error e) : e = .callbackChangesConstant := by
  induction fs generalizing c with
  | nil => cases h
  | cons f fs ih =>
    rw [writeFields] at h
    split at h
    · split at h
      · exact ih h
      · rename_i hw; cases h; exact fieldWrite_error hw
    · exact ih h

/-- The write loop answers when no write callback changes a constant. -/
theorem writeFields_isOk {fs : List FieldDecl} (hp : ∀ f ∈ fs, ∀ p, f.wcb = some p → sparesConstants storage p)
    (v M : Word) (c : Ctx) : ∃ c', writeFields reg storage v M fs c = .ok c' := by
  induction fs generalizing c with
  | nil => exact ⟨c, rfl⟩
  | cons f fs ih =>
    have ih' := fun c => ih (fun g hg => hp g (by simp [hg])) c
    rw [writeFields]
    split
    · split
      · exact ih' _
      · rename_i e hw
        rw [fieldWrite] at hw
        split at hw
        · cases hw
        · rename_i n hs
          rw [fireWcb] at hw
          split at hw
          · cases hw
          · rename_i p hwc
            obtain ⟨vals, hr⟩ := runCallback_isOk (reg := reg) hd (hp f (by simp) p hwc)
              (c.vals.val reg f.lo) n (c.vals.put reg f.lo n)
            rw [hr] at hw; cases hw
    · exact ih' c

end

/-! ### Register operations of a bank -/

theorem clampsFit_storage {sch : Schema} (h : schemaWellFormed sch = true) {d : RegDecl} (hd : d ∈ sch.regs) :
    clampsFit (storageFields (schemaWidth sch) d) := by
  intro f hf he v hp
  have hm := (mem_storageFields.1 hf).1
  exact enum_valid_lt h hd hm he (clamp_valid h hd hm he hp)

theorem mem_storage_of_writable {W : Nat} {d : RegDecl} {f : FieldDecl} (hf : f ∈ layout W d)
    (hw : writableField f = true) : f ∈ storageFields W d :=
  List.mem_filter.2 ⟨hf, writableField_storage hw⟩

/-- What a register write can change. -/
theorem regWrite_changesOnly {sch : Schema} (h : schemaWellFormed sch = true) {d : RegDecl} (hd : d ∈ sch.regs)
    {v M : Word} {vals : Store} {c : Ctx} (hr : regWrite sch d v M vals = .ok c) :
    ChangesOnly d.offset (storageFields (schemaWidth sch) d) vals c.vals :=
  writeFields_changesOnly (storage_lo_lt h hd) (clampsFit_storage h hd)
    (fun _ hf hw => mem_storage_of_writable hf hw) hr

theorem regRead_ok {sch : Schema} {d : RegDecl} {vals : Store} {R : Word} {c : Ctx}
    (hr : regRead sch d vals = .ok (R, c)) :
    readFields d.offset (storageFields (schemaWidth sch) d) (layout (schemaWidth sch) d) ⟨vals, []⟩ = .ok c ∧
      R = packedValue sch d vals c.vals := by
  rw [regRead] at hr
  split at hr
  · rename_i c' hf; cases hr; exact ⟨hf, rfl⟩
  · cases hr

/-- What a register read can change. -/
theorem regRead_changesOnly {sch : Schema} (h : schemaWellFormed sch = true) {d : RegDecl} (hd : d ∈ sch.regs)
    {vals : Store} {R : Word} {c : Ctx} (hr : regRead sch d vals = .ok (R, c)) :
    ChangesOnly d.offset (storageFields (schemaWidth sch) d) vals c.vals :=
  readFields_changesOnly (storage_lo_lt h hd) (regRead_ok hr).1

theorem regRead_error {sch : Schema} {d : RegDecl} {vals : Store} {e : Refusal}
    (hr : regRead sch d vals = .error e) : e = .callbackChangesConstant := by
  rw [regRead] at hr
  split at hr
  · cases hr
  · rename_i hf; cases hr; exact readFields_error hf

/-- What ISET can do (40_field_ops.md R150). -/
theorem iset_ok {sch : Schema} (h : schemaWellFormed sch = true) {r lo : Nat} {x : Word} {vals vals' : Store}
    (hi : iset sch r lo x vals = .ok vals') :
    ∃ d ∈ sch.regs, d.offset = r ∧ ∃ f ∈ storageFields (schemaWidth sch) d, f.lo = lo ∧
      f.mode ≠ .readOnlyConstant ∧ x.toNat < 2 ^ f.width ∧ vals' = vals.put d.offset f.lo x := by
  rw [iset] at hi
  split at hi
  · cases hi
  · rename_i d hf
    obtain ⟨hd, ho⟩ := (findReg_eq_some h).1 hf
    split at hi
    · cases hi
    · rename_i f hff
      have hm := List.mem_of_find?_eq_some hff
      have hlo : f.lo = lo := by simpa using List.find?_some hff
      split at hi
      · cases hi
      · rename_i hs
        split at hi
        · cases hi
        · rename_i hc
          split at hi
          · cases hi
          · rename_i hx
            cases hi
            refine ⟨d, hd, ho, f, List.mem_filter.2 ⟨hm, by simpa using hs⟩, hlo, hc, by omega, ?_⟩
            rw [trunc_eq_self (by omega), ho, hlo]

end Sys2Proof.Machine
end

