-- ==== Sys2Proof/Laws/Exec.lean ====
section
/-! SUPPORT. One inversion lemma per operation of the machine: if it answers a next state, then one of these cases
holds. -/

namespace Sys2Proof.Machine

/-! ### READ (42_bus_ops.md R187) -/

theorem execRd_next {off : Word} {wb : BitVec 4} {s t : State} (h : execRd off wb s = .next t) :
    (∃ a, accessCheck s.bank.schema off.toNat wb.toNat = .error a ∧ t = s.absorb (.access a .read off wb)) ∨
    ∃ d R c, Reaches s off.toNat wb.toNat d ∧ regRead s.bank.schema d s.vals = .ok (R, c) ∧
      t = s.answer (extractLane s.bank.schema off.toNat wb.toNat R) c.vals c.events := by
  rw [execRd] at h
  split at h
  · rename_i a ha; cases h; exact .inl ⟨a, ha, rfl⟩
  · rename_i d hd
    cases hr : regRead s.bank.schema d s.vals with
    | error e => rw [hr] at h; cases h
    | ok p =>
      obtain ⟨R, c⟩ := p
      rw [hr] at h; cases h
      exact .inr ⟨d, R, c, (accessCheck_eq_ok ..).1 hd, hr, rfl⟩

theorem execRd_refused {off : Word} {wb : BitVec 4} {s : State} {r : Refusal} (h : execRd off wb s = .refused r) :
    ∃ d, Reaches s off.toNat wb.toNat d ∧ regRead s.bank.schema d s.vals = .error r := by
  rw [execRd] at h
  split at h
  · cases h
  · rename_i d hd
    cases hr : regRead s.bank.schema d s.vals with
    | error e => rw [hr] at h; cases h; exact ⟨d, (accessCheck_eq_ok ..).1 hd, hr⟩
    | ok p => rw [hr] at h; cases h

/-- READ of a register it reaches. -/
theorem execRd_reaches {off : Word} {wb : BitVec 4} {s : State} {d : RegDecl}
    (h : Reaches s off.toNat wb.toNat d) :
    execRd off wb s = finishRead s off.toNat wb.toNat (regRead s.bank.schema d s.vals) := by
  rw [execRd, (accessCheck_eq_ok ..).2 h]

/-! ### WRITE (42_bus_ops.md R188) -/

theorem execWr_next {off : Word} {wb : BitVec 4} {data : Word} {s t : State} (h : execWr off wb data s = .next t) :
    (∃ a, accessCheck s.bank.schema off.toNat wb.toNat = .error a ∧ t = s.absorb (.access a .write off wb)) ∨
    ∃ d c, Reaches s off.toNat wb.toNat d ∧
      regWrite s.bank.schema d (placeWriteData s.bank.schema off.toNat wb.toNat data)
        (laneMask s.bank.schema off.toNat wb.toNat) s.vals = .ok c ∧
      t = s.answer 0 c.vals c.events := by
  rw [execWr] at h
  split at h
  · rename_i a ha; cases h; exact .inl ⟨a, ha, rfl⟩
  · rename_i d hd
    cases hr : regWrite s.bank.schema d (placeWriteData s.bank.schema off.toNat wb.toNat data)
        (laneMask s.bank.schema off.toNat wb.toNat) s.vals with
    | error e => rw [hr] at h; cases h
    | ok c => rw [hr] at h; cases h; exact .inr ⟨d, c, (accessCheck_eq_ok ..).1 hd, hr, rfl⟩

theorem execWr_refused {off : Word} {wb : BitVec 4} {data : Word} {s : State} {r : Refusal}
    (h : execWr off wb data s = .refused r) :
    ∃ d, Reaches s off.toNat wb.toNat d ∧
      regWrite s.bank.schema d (placeWriteData s.bank.schema off.toNat wb.toNat data)
        (laneMask s.bank.schema off.toNat wb.toNat) s.vals = .error r := by
  rw [execWr] at h
  split at h
  · cases h
  · rename_i d hd
    cases hr : regWrite s.bank.schema d (placeWriteData s.bank.schema off.toNat wb.toNat data)
        (laneMask s.bank.schema off.toNat wb.toNat) s.vals with
    | error e => rw [hr] at h; cases h; exact ⟨d, (accessCheck_eq_ok ..).1 hd, hr⟩
    | ok c => rw [hr] at h; cases h

/-- WRITE to a register it reaches. -/
theorem execWr_reaches {off : Word} {wb : BitVec 4} {data : Word} {s : State} {d : RegDecl}
    (h : Reaches s off.toNat wb.toNat d) :
    execWr off wb data s = finishWrite s (regWrite s.bank.schema d
      (placeWriteData s.bank.schema off.toNat wb.toNat data) (laneMask s.bank.schema off.toNat wb.toNat) s.vals) := by
  rw [execWr, (accessCheck_eq_ok ..).2 h]

/-! ### ISET (42_bus_ops.md R196) -/

theorem execIset_next {off : Word} {flo : BitVec 6} {data : Word} {s t : State}
    (h : execIset off flo data s = .next t) :
    ∃ d ∈ s.bank.schema.regs, d.offset = off.toNat ∧ ∃ f ∈ s.storage d, f.lo = flo.toNat ∧
      f.mode ≠ .readOnlyConstant ∧ data.toNat < 2 ^ f.width ∧
      t = s.answer 0 (s.vals.put d.offset f.lo data) [] := by
  rw [execIset] at h
  cases hi : iset s.bank.schema off.toNat flo.toNat data s.vals with
  | error e => rw [hi] at h; cases h
  | ok vals =>
    rw [hi] at h; cases h
    obtain ⟨d, hd, ho, f, hf, hlo, hm, hx, rfl⟩ := iset_ok s.bank.ok hi
    exact ⟨d, hd, ho, f, hf, hlo, hm, hx, rfl⟩

theorem execIset_refused {off : Word} {flo : BitVec 6} {data : Word} {s : State} {r : Refusal}
    (h : execIset off flo data s = .refused r) :
    iset s.bank.schema off.toNat flo.toNat data s.vals = .error r := by
  rw [execIset] at h
  cases hi : iset s.bank.schema off.toNat flo.toNat data s.vals with
  | error e => rw [hi] at h; cases h; rfl
  | ok vals => rw [hi] at h; cases h

/-! ### One step (30_encoding.md R90) -/

theorem fetch_of_empty {s : State} (h : s.stream = []) : s.fetch = none := by
  rw [State.fetch, h]

theorem fetch_of_request {s : State} {q : Record} {rest : List Record} (h : s.stream = q :: rest) :
    s.fetch = some (decode s.bank.schema.addrBits q, { s with stream := rest }) := by
  rw [State.fetch, h]

/-- Only the head of the stream is fetched, and only it is taken off. -/
theorem fetch_eq_some {s t : State} {i : Instr} (h : s.fetch = some (i, t)) :
    ∃ q rest, s.stream = q :: rest ∧ i = decode s.bank.schema.addrBits q ∧ t = { s with stream := rest } := by
  rw [State.fetch] at h
  split at h
  · cases h
  · rename_i q rest hs; cases h; exact ⟨q, rest, hs, rfl, rfl⟩

/-- The word put in front of the stream is what the next step runs. -/
theorem step_withFetchWord (s : State) (nbits w : Nat) :
    step (s.withFetchWord nbits w) = exec (decodeBits s.bank.schema.addrBits (w % 2 ^ nbits)) s := rfl

end Sys2Proof.Machine
end

