-- ==== Sys2Proof/Laws/PerInstr.lean ====
section
/-! SUPPORT. Per-instruction laws: the header the encoder writes matches the instruction's row of opcode_table.json. -/

namespace Sys2Proof.Laws.OpcodeRow

/-- The row's match under the row's mask 0xC087 (RSV1, RSV0 and OP of H); a MALFORMED request is encoded by the header
it reports. -/
def Statement : Instr → Prop
  | .rd off wb => (encode (.rd off wb)).h &&& 0xC087#16 = 0x0000#16
  | .wr off wb data => (encode (.wr off wb data)).h &&& 0xC087#16 = 0x0001#16
  | .rst => (encode .rst).h &&& 0xC087#16 = 0x0002#16
  | .iset off flo data => (encode (.iset off flo data)).h &&& 0xC087#16 = 0x0003#16
  | .size => (encode .size).h &&& 0xC087#16 = 0x0004#16
  | .malformed h => (encode (.malformed h)).h = h

theorem rd (off : Word) (wb : BitVec 4) : Statement (.rd off wb) := by
  have : ∀ wb : BitVec 4, encodeHeader 0 wb 0 &&& 0xC087#16 = 0x0000#16 := by decide
  exact this wb

theorem wr (off : Word) (wb : BitVec 4) (data : Word) : Statement (.wr off wb data) := by
  have : ∀ wb : BitVec 4, encodeHeader 1 wb 0 &&& 0xC087#16 = 0x0001#16 := by decide
  exact this wb

theorem rst : Statement .rst := by
  have : encodeHeader 2 0 0 &&& 0xC087#16 = 0x0002#16 := by decide
  exact this

theorem iset (off : Word) (flo : BitVec 6) (data : Word) : Statement (.iset off flo data) := by
  have : ∀ flo : BitVec 6, encodeHeader 3 0 flo &&& 0xC087#16 = 0x0003#16 := by decide
  exact this flo

theorem size : Statement .size := by
  have : encodeHeader 4 0 0 &&& 0xC087#16 = 0x0004#16 := by decide
  exact this

theorem malformed (h : BitVec 16) : Statement (.malformed h) := rfl

end Sys2Proof.Laws.OpcodeRow
end

