-- ==== Sys2Proof/Tests/Slice0.lean ====
section
/-! SUPPORT. Tests. Expected results come from spec/ (the vector or rule is named); the witnesses show that the
hypotheses of the statements can be met. -/

namespace Sys2Proof.Tests

open Sys2Proof.Machine

/-! ### Helpers -/

/-- A bank's state with some stored values changed. -/
def stateOf (b : Bank) (changes : List (Nat × Nat × Word)) : State :=
  { State.ofBank b with vals := changes.foldl (fun v c => v.put c.1 c.2.1 c.2.2) (powerOnVals b.schema) }

/-- Bank EX in S0 with some stored values changed. -/
def ex (changes : List (Nat × Nat × Word)) : State := stateOf exBank changes

/-- A single-register bank X (95_test_vectors.md section 3.3). -/
def xSchema (order : PackOrder) (reset : Word) (fields : List FieldDecl) : Schema where
  native := 1
  permitted := [1]
  size := 1
  addrBits := 32
  packOrder := order
  regs := [{ offset := 0, name := "X", reset := reset, fields := fields }]

/-- What one request leaves at the listed places, and its reply. -/
def observe (places : List (Nat × Nat)) (o : Host.Outcome State Fault Refusal) : Option (List Word × Option Reply) :=
  match o with
  | .next t => some (places.map fun p => t.vals.val p.1 p.2, t.replies.getLast?)
  | .fault _ => none
  | .refused _ => none

/-- The refusal of one request. -/
def refusalOf (o : Host.Outcome State Fault Refusal) : Option Refusal :=
  match o with
  | .next _ => none
  | .fault _ => none
  | .refused r => some r

/-- The next state of one request (`d` where there is none). -/
def nextOr (d : State) (o : Host.Outcome State Fault Refusal) : State :=
  match o with
  | .next t => t
  | .fault _ => d
  | .refused _ => d

/-! ### WellFormed: one ill-formed term for each check (30_encoding.md R96, R97, R101) -/

theorem test_wf_rd_offset_too_wide : (Instr.rd 0x100000000 4).wellFormed 32 = false := by decide
theorem test_wf_wr_offset_too_wide : (Instr.wr 0x10 1 0).wellFormed 4 = false := by decide
theorem test_wf_iset_offset_too_wide : (Instr.iset 2 0 0).wellFormed 1 = false := by decide
theorem test_wf_malformed_header_of_an_operation : (Instr.malformed 0x0021).wellFormed 32 = false := by decide
theorem test_wf_largest_operands : (Instr.rd 0xFFFFFFFF 15).wellFormed 32 = true ∧
    (Instr.iset 0xFFFFFFFFFFFFFFFF 63 0).wellFormed 64 = true ∧ (Instr.malformed 0x0005).wellFormed 32 = true := by
  decide

/-! ### Decode: headers written bit by bit from 30_encoding.md R92 (RSV1 FLO RSV0 WB OP), one for each operation -/

theorem test_decode_rd : decode 32 ⟨0b00_000000_0_0100_000, 0xC, 0⟩ = .rd 0xC 4 := by decide
theorem test_decode_wr : decode 32 ⟨0b00_000000_0_0001_001, 0x5, 0xFF⟩ = .wr 0x5 1 0xFF := by decide
theorem test_decode_rst : decode 32 ⟨0b00_000000_0_0000_010, 0x12345678, 0xFFFFFFFFFFFFFFFF⟩ = .rst := by decide
theorem test_decode_iset : decode 32 ⟨0b00_011000_0_0000_011, 0x0, 0x5A⟩ = .iset 0x0 24 0x5A := by decide
theorem test_decode_size : decode 32 ⟨0b00_000000_0_0000_100, 0, 0⟩ = .size := by decide
theorem test_decode_op5 : decode 32 ⟨0b00_000000_0_0000_101, 0, 0⟩ = .malformed 0x0005 := by decide
theorem test_decode_rsv0 : decode 32 ⟨0b00_000000_1_0100_000, 0, 0⟩ = .malformed 0x00A0 := by decide
theorem test_decode_rsv1 : decode 32 ⟨0b01_000000_0_0100_001, 0, 0xFFFFFFFF⟩ = .malformed 0x4021 := by decide
theorem test_decode_flo_unused_by_rd : decode 32 ⟨0b00_111111_0_0010_000, 2, 7⟩ = .rd 2 2 := by decide
theorem test_encode_header : encodeHeader 3 0 24 = 0x1803 ∧ encodeHeader 1 4 0 = 0x0021 := by decide
theorem test_decodeTableWord_wr : decodeTableWord 112 0x0000000000000012000000010009 = some (.wr 0x1 1 0x12) := by
  decide
theorem test_withFetchWord_runs : observe [(0, 8)] (step (State.reset.withFetchWord 112 0x12000000010009)) =
    some ([0x12], some ⟨0, []⟩) := by decide

/-! ### One step of each operation (95_test_vectors.md section 4) -/

theorem test_V_RD1 : observe [] (exec (.rd 0x0 4) State.reset) =
    some ([], some ⟨0x00000003, [.diag (.field .taggedRead 0x0 16 0)]⟩) := by decide
theorem test_V_RD4 : observe [(4, 5)] (exec (.rd 0x4 4) (ex [(4, 5, 1)])) =
    some ([0], some ⟨0x0000A500, [.cbRead 0x4 5 1]⟩) := by decide
theorem test_V_WR10 : observe [(12, 0), (12, 2), (12, 4), (12, 12)] (exec (.wr 0xC 4 0x00001053) State.reset) =
    some ([3, 0, 6, 0], some ⟨0, [.cbWrite 0xC 0 3 3, .cbWrite 0xC 12 0 1,
      .diag (.field .reservedWrite 0xC 13 0)]⟩) := by decide
theorem test_V_NW7 : observe [(4, 0)] (exec (.wr 0x4 2 0x0001) (ex [(4, 0, 0xB)])) =
    some ([0xA], some ⟨0, [.diag (.field .readOnlyWrite 0x4 4 0), .diag (.field .readOnlyWrite 0x4 5 0),
      .diag (.field .reservedWrite 0x4 6 0), .diag (.field .readOnlyWrite 0x4 8 0x00)]⟩) := by decide
theorem test_V_IS3 : observe [(0, 1)] (exec (.iset 0x0 1 0) State.reset) = some ([0], some ⟨0, []⟩) := by decide
theorem test_V_IS7_to_IS13 :
    refusalOf (exec (.iset 0x0 8 0x100) State.reset) = some .isetValueTooWide ∧
    refusalOf (exec (.iset 0x4 8 0x00) State.reset) = some .isetConstant ∧
    refusalOf (exec (.iset 0x4 6 0) State.reset) = some .isetNonStorage ∧
    refusalOf (exec (.iset 0x0 16 0) State.reset) = some .isetNonStorage ∧
    refusalOf (exec (.iset 0x4 1 0) State.reset) = some .isetNoField ∧
    refusalOf (exec (.iset 0x8 0 0) State.reset) = some .isetNoRegister ∧
    refusalOf (exec (.iset 0x5 0 0) State.reset) = some .isetNoRegister := by decide
theorem test_V_RST1 : observe [(0, 0), (0, 1), (0, 8), (0, 24)]
    (exec .rst (ex [(0, 0, 0), (0, 1, 3), (0, 8, 0xFF), (0, 24, 0xFF)])) =
    some ([1, 1, 0x00, 0x00], some ⟨0, []⟩) := by decide
theorem test_V_SZ1 : observe [] (exec .size State.reset) = some ([], some ⟨0x10, []⟩) := by decide
theorem test_V_MF4 : observe [(0, 0), (0, 1)] (exec (.malformed 0x00A0) State.reset) =
    some ([1, 1], some ⟨0, [.diag (.malformedRequest 0x00A0)]⟩) := by decide
theorem test_V_AC : [exec (.rd 0x0 3) State.reset, exec (.rd 0x12 4) State.reset, exec (.rd 0xFFFFFFFC 4) State.reset,
      exec (.wr 0xA 2 0xFFFF) State.reset].map (observe []) =
    [some ([], some ⟨0, [.diag (.access .illegalWidth .read 0x0 3)]⟩),
     some ([], some ⟨0, [.diag (.access .misaligned .read 0x12 4)]⟩),
     some ([], some ⟨0, [.diag (.access .outOfRange .read 0xFFFFFFFC 4)]⟩),
     some ([], some ⟨0, [.diag (.access .unmapped .write 0xA 2)]⟩)] := by decide

/-! ### Construction (95_test_vectors.md section 4.9) -/

/-- EX with one register replaced. -/
def exReg (i : Nat) (d : RegDecl) : Schema := { Config.ex with regs := Config.ex.regs.set i d }

/-- A register with its field at a place of the declaration changed. -/
def withField (d : RegDecl) (i : Nat) (up : FieldDecl → FieldDecl) : RegDecl :=
  { d with fields := d.fields.modify i up }

theorem test_V_CE1_to_CE5 :
    Check.fieldOverlap ∈ failedChecks (exReg 0 { Config.exCtrl with
      fields := Config.exCtrl.fields ++ [{ lo := 2, width := 2, kind := .unsignedRange, mode := .readWrite }] }) ∧
    Check.fieldExceedsWidth ∈ failedChecks (exReg 1 { Config.exStatus with
      fields := Config.exStatus.fields ++ [{ lo := 30, width := 4, kind := .unsignedRange, mode := .readWrite }] }) ∧
    failedChecks (exReg 0 { Config.exCtrl with reset := 0x00000001 }) = [.resetInvalidEnum] ∧
    Check.fieldWidthZero ∈ failedChecks (exReg 0 (withField Config.exCtrl 2 fun f => { f with width := 0 })) ∧
    Check.flagWidth ∈ failedChecks (exReg 0 (withField Config.exCtrl 0 fun f => { f with width := 2 })) := by decide

theorem test_V_CE6_to_CE10 :
    Check.enumSetInvalid ∈ failedChecks (exReg 0 (withField Config.exCtrl 1 fun f => { f with valid := [4] })) ∧
    failedChecks (exReg 0 (withField Config.exCtrl 1 fun f => { f with policy := .clamp 0 })) =
      [.clampDefaultInvalid] ∧
    failedChecks (exReg 2 (withField Config.exSel 1 fun f => { f with mode := .writeOneToClear })) = [.w1cKind] ∧
    Check.registerOffset ∈ failedChecks (exReg 2 { Config.exSel with offset := 0xE }) ∧
    failedChecks (exReg 2 { Config.exSel with offset := 0x4 }) = [.duplicateOffset] := by decide

theorem test_V_CE11_to_CE15 :
    failedChecks { Config.ex with permitted := [1, 2] } = [.widthSet] ∧
    failedChecks { Config.ex with size := 0xE } = [.registerOffset, .sizeInvalid] ∧
    failedChecks (exReg 0 (withField Config.exCtrl 3 fun f => { f with rcb := some .skip })) =
      [.callbackOnNonStorage] ∧
    failedChecks (exReg 1 { Config.exStatus with reset := 0x0000A540 }) = [.resetReservedNonzero] ∧
    failedChecks { Config.ex with addrBits := 0 } = [.sizeInvalid, .addrBits] := by decide

theorem test_V_CE16_to_CE19 :
    failedChecks Config.ex = [] ∧
    (layout 32 Config.exCtrl).map (fun f => (f.lo, f.width)) =
      [(0, 1), (1, 2), (3, 5), (8, 8), (16, 8), (24, 8)] ∧
    layout 32 { Config.exCtrl with fields := Config.exCtrl.fields.reverse } = layout 32 Config.exCtrl ∧
    failedChecks (exReg 2 { Config.exSel with offset := 0x10 }) = [.registerOffset] ∧
    failedChecks { Config.ex with permitted := [1, 2, 4, 8] } = [.widthSet] := by decide

/-- A[3:0] and two fields of width 0, one inside A and one inside the gap [7:4]: of the checks on the fields CE4 alone
fails (43_construction.md R221, R222, R231). -/
def zeroWidth (reset : Word) : Schema := xSchema .callbacksFirst reset
  [{ lo := 2, width := 0, kind := .unsignedRange, mode := .readWrite },
   { lo := 6, width := 0, kind := .unsignedRange, mode := .readWrite },
   { lo := 0, width := 4, kind := .unsignedRange, mode := .readWrite }]

theorem test_zero_width_fields_end_no_gap :
    failedChecks (zeroWidth 0xC) = [.fieldWidthZero] ∧
    failedChecks (zeroWidth 0x2C) = [.fieldWidthZero, .resetReservedNonzero] ∧
    (zeroWidth 0xC).regs.map (fun d => (implicitFields 8 d.fields).map fun f => (f.lo, f.width)) = [[(4, 4)]] := by
  decide

/-! ### Witnesses: banks -/

/-- EX with READ_PACK_ORDER = PACK_FIRST. -/
def packFirstBank : Bank := ⟨{ Config.ex with packOrder := .packFirst }, by decide⟩

/-- A round-trip register (41_register_ops.md R168): an Enum, a gap and a range. -/
def rtBank : Bank := ⟨xSchema .callbacksFirst 0
  [{ lo := 0, width := 2, kind := .enum, mode := .readWrite, valid := [0, 1, 2] },
   { lo := 4, width := 4, kind := .unsignedRange, mode := .readWrite }], by decide⟩

/-- A constant, and callbacks that change it (40_field_ops.md R142). -/
def badBank : Bank := ⟨xSchema .callbacksFirst 0
  [{ lo := 0, width := 4, kind := .unsignedRange, mode := .readOnlyConstant },
   { lo := 4, width := 1, kind := .flag, mode := .readWrite, wcb := some (.assign 0 (.const 1)),
     rcb := some (.assign 0 (.const 1)) }], by decide⟩

/-- A register whose gap starts at bit 0. -/
def gapBank : Bank := ⟨xSchema .callbacksFirst 0 [{ lo := 4, width := 4, kind := .unsignedRange, mode := .readWrite }],
  by decide⟩

/-- Two read callbacks: A adds 1 to B, B copies itself to C. -/
def chainBank : Bank := ⟨xSchema .callbacksFirst 0x09
  [{ lo := 0, width := 2, kind := .unsignedRange, mode := .readWrite,
     rcb := some (.assign 2 (.bin .add (.field 2) (.const 1))) },
   { lo := 2, width := 2, kind := .unsignedRange, mode := .readWrite, rcb := some (.assign 4 .new) },
   { lo := 4, width := 4, kind := .unsignedRange, mode := .readWrite }], by decide⟩

/-- A bank whose SIZE is 2^64. -/
def hugeBank : Bank :=
  ⟨{ native := 8, permitted := [8], size := 2 ^ 64, addrBits := 64, packOrder := .callbacksFirst, regs := [] },
   by decide⟩

/-- The register of a single-register bank. -/
def only (b : Bank) : RegDecl := b.schema.regs.headD Config.exCtrl

/-- EX with PEND = 0xB and RC = 1. -/
def busy : State := ex [(4, 0, 0xB), (4, 5, 1)]

/-- The same state with a request waiting: `rd.w 0x4`. -/
def waiting : State := busy.request ⟨0x0020, 0x4, 0⟩

theorem busy_inv : busy.Inv := ⟨by decide, by decide, by decide⟩
theorem waiting_inv : waiting.Inv := ⟨by decide, by decide, by decide⟩
theorem rt_inv : (stateOf rtBank [(0, 4, 7)]).Inv := ⟨by decide, by decide, by decide⟩
theorem packFirst_inv : (stateOf packFirstBank [(4, 5, 1)]).Inv := ⟨by decide, by decide, by decide⟩

theorem reaches_ctrl : Reaches busy 0x0 4 Config.exCtrl := ⟨by decide, by decide, by decide, by decide, by decide⟩
theorem reaches_ctrl_lane : Reaches busy 0x1 1 Config.exCtrl :=
  ⟨by decide, by decide, by decide, by decide, by decide⟩
theorem reaches_status : Reaches busy 0x4 4 Config.exStatus :=
  ⟨by decide, by decide, by decide, by decide, by decide⟩
theorem reaches_status_lane : Reaches busy 0x5 1 Config.exStatus :=
  ⟨by decide, by decide, by decide, by decide, by decide⟩
theorem reaches_sel_lane : Reaches busy 0xD 1 Config.exSel := ⟨by decide, by decide, by decide, by decide, by decide⟩
theorem reaches_sel : Reaches busy 0xC 4 Config.exSel := ⟨by decide, by decide, by decide, by decide, by decide⟩
theorem reaches_chain : Reaches (State.ofBank chainBank) 0 1 (only chainBank) :=
  ⟨by decide, by decide, by decide, by decide, by decide⟩
theorem reaches_packFirst : Reaches (stateOf packFirstBank [(4, 5, 1)]) 0x4 4 Config.exStatus :=
  ⟨by decide, by decide, by decide, by decide, by decide⟩
theorem reaches_rt : Reaches (stateOf rtBank [(0, 4, 7)]) 0 1 (only rtBank) :=
  ⟨by decide, by decide, by decide, by decide, by decide⟩
theorem reaches_bad : Reaches (State.ofBank badBank) 0 1 (only badBank) :=
  ⟨by decide, by decide, by decide, by decide, by decide⟩

/-- Field number `n` of a register's layout. -/
def fieldAt (W : Nat) (d : RegDecl) (n : Nat) : FieldDecl := (layout W d).getD n (gapField 0 0)

/-- RC's read callback spares ID. -/
theorem rc_spares : sparesConstants (busy.storage Config.exStatus) (.assign 5 (.const 0)) := by
  intro g hg hm
  have h : ∀ g ∈ busy.storage Config.exStatus, g.mode = .readOnlyConstant → g.lo ∉ programAssigns (.assign 5 (.const 0)) :=
    by decide
  exact callbackKeeps_of_not_assigned (h g hg hm)

theorem status_reads_spare : ∀ f ∈ busy.fields Config.exStatus, ∀ p, f.rcb = some p →
    sparesConstants (busy.storage Config.exStatus) p := by
  intro f hf p hp
  have h : ∀ f ∈ busy.fields Config.exStatus, ∀ p ∈ f.rcb, p = .assign 5 (.const 0) := by decide
  rw [h f hf p hp]
  exact rc_spares

theorem sel_writes_spare : ∀ f ∈ busy.fields Config.exSel, meetsLane (0xD % 4) 1 f = true → ∀ p, f.wcb = some p →
    sparesConstants (busy.storage Config.exSel) p := by
  intro f _ _ p _ g hg hm
  have h : ∀ g ∈ busy.storage Config.exSel, g.mode ≠ .readOnlyConstant := by decide
  exact absurd hm (h g hg)

/-! ### Witnesses: decoding -/

theorem witness_EncodedRequestDecodesBack :
    (1 ≤ 1 ∧ 1 ≤ 64 ∧ (Instr.rd 1 15).wellFormed 1 = true) ∧
    (1 ≤ 64 ∧ 64 ≤ 64 ∧ (Instr.wr 0xFFFFFFFFFFFFFFFF 8 0xFFFFFFFFFFFFFFFF).wellFormed 64 = true) ∧
    (1 ≤ 32 ∧ 32 ≤ 64 ∧ (Instr.iset 0xFFFFFFFF 63 1).wellFormed 32 = true) ∧
    Instr.rst.wellFormed 32 = true ∧ Instr.size.wellFormed 32 = true ∧
    (Instr.malformed 0x0005).wellFormed 32 = true ∧ (Instr.malformed 0x0080).wellFormed 32 = true := by decide
theorem witness_EveryRecordDecodesToAWellFormedOperation : (1 ≤ 1 ∧ 1 ≤ 64) ∧ (1 ≤ 64 ∧ 64 ≤ 64) := by decide
theorem witness_ReservedHeaderBitMakesRequestMalformed :
    (0x0080#16).toNat / 2 ^ 7 % 2 ≠ 0 ∧ (0x4000#16).toNat / 2 ^ 14 ≠ 0 ∧ (0x8000#16).toNat / 2 ^ 14 ≠ 0 := by decide
/-- One header for each value of OP, FLO and WB all ones. -/
theorem witness_OpSelectsTheOperation : ∀ n < 8, (BitVec.ofNat 16 (0x3F78 + n)).toNat / 2 ^ 7 % 2 = 0 ∧
    (BitVec.ofNat 16 (0x3F78 + n)).toNat / 2 ^ 14 = 0 ∧ (BitVec.ofNat 16 (0x3F78 + n)).toNat % 8 = n := by decide
/-- Headers of one OP that differ only in the fields it does not use: FLO for READ and WRITE, WB for ISET, both for
RESET and SIZE. -/
theorem witness_DontCareFieldsHaveNoEffect :
    [(0x0020, 0x3F20), (0x0021, 0x3F21), (0x0002, 0x3F7A), (0x1803, 0x187B), (0x0004, 0x3F7C)].all
      (fun p : Nat × Nat => p.1 / 2 ^ 7 % 2 == 0 && p.1 / 2 ^ 14 == 0 && p.2 / 2 ^ 7 % 2 == 0 && p.2 / 2 ^ 14 == 0 &&
        p.1 % 8 == p.2 % 8 && (p.1 % 8 != 0 && p.1 % 8 != 1 || p.1 / 2 ^ 3 % 16 == p.2 / 2 ^ 3 % 16) &&
        (p.1 % 8 != 3 || p.1 / 2 ^ 8 % 64 == p.2 / 2 ^ 8 % 64)) = true := by decide

/-! ### Witnesses: one step and the invariant -/

theorem witness_StepRunsTheNextRequest : waiting.stream = ⟨0x0020, 0x4, 0⟩ :: [] := by decide
theorem witness_StepWithoutRequestIdles : busy.stream = [] := by decide
theorem witness_EachRequestGetsOneReplyInOrder :
    waiting.stream = ⟨0x0020, 0x4, 0⟩ :: [] ∧ step waiting = .next (nextOr busy (step waiting)) := ⟨by decide, rfl⟩
theorem witness_StepKeepsTheSchema : step waiting = .next (nextOr busy (step waiting)) := rfl
theorem witness_OnlyTheseRefusalsHappen :
    exec (.rd 0 1) (State.ofBank badBank) = .refused .callbackChangesConstant ∧
    exec (.wr 0 1 0x10) (State.ofBank badBank) = .refused .callbackChangesConstant ∧
    exec (.iset 0x8 0 0) busy = .refused .isetNoRegister := ⟨rfl, rfl, rfl⟩
theorem witness_StepKeepsTheInvariant : waiting.Inv ∧ step waiting = .next (nextOr busy (step waiting)) :=
  ⟨waiting_inv, rfl⟩
theorem witness_ReadOnlyConstantAlwaysHoldsItsResetSlice :
    Config.exStatus ∈ exBank.schema.regs ∧ fieldAt 32 Config.exStatus 4 ∈ layout 32 Config.exStatus ∧
    storageKind (fieldAt 32 Config.exStatus 4).kind = true ∧ (fieldAt 32 Config.exStatus 4).mode = .readOnlyConstant ∧
    busy.bank = exBank ∧ busy.field Config.exStatus (fieldAt 32 Config.exStatus 4) = 0xA5 ∧
    resetSlice Config.exStatus (fieldAt 32 Config.exStatus 4) = 0xA5 ∧
    exec (.wr 0x5 1 0xFF) busy = .next (nextOr busy (exec (.wr 0x5 1 0xFF) busy)) ∧
    exec .rst busy = .next (nextOr busy (exec .rst busy)) ∧
    (0x4 : Word).toNat = Config.exStatus.offset ∧ (8 : BitVec 6).toNat = (fieldAt 32 Config.exStatus 4).lo :=
  ⟨by decide, by decide, by decide, by decide, by decide, by decide, by decide, rfl, rfl, by decide, by decide⟩

/-! ### Witnesses: construction, RESET, SIZE -/

theorem witness_FieldsPartitionTheRegister : Config.exStatus ∈ exBank.schema.regs ∧ 31 < schemaWidth exBank.schema :=
  by decide
/-- The gaps [7:3] of CTRL and [31:16] of STATUS (95_test_vectors.md section 3.1), a gap that starts at bit 0, and the
gap [7:4] with a field of width 0 inside; CE1 and CE2 hold of the three schemas. -/
theorem witness_GapsBecomeReservedFields :
    (∀ sch ∈ [Config.ex, gapBank.schema, zeroWidth 0xC],
      (∀ d ∈ sch.regs, d.fields.Pairwise fun f g =>
        ¬ ∃ i, (f.lo ≤ i ∧ i < f.lo + f.width) ∧ (g.lo ≤ i ∧ i < g.lo + g.width)) ∧
      (∀ d ∈ sch.regs, ∀ f ∈ d.fields, f.lo + f.width ≤ 8 * sch.native)) ∧
    (Config.exCtrl ∈ Config.ex.regs ∧ fieldAt 32 Config.exCtrl 2 ∈ layout 32 Config.exCtrl ∧
      fieldAt 32 Config.exCtrl 2 ∉ Config.exCtrl.fields) ∧
    ((∀ i, 3 ≤ i → i ≤ 7 → ∀ g ∈ Config.exCtrl.fields, ¬ (g.lo ≤ i ∧ i < g.lo + g.width)) ∧
      (∃ g ∈ Config.exCtrl.fields, g.lo ≤ 3 - 1 ∧ 3 - 1 < g.lo + g.width) ∧
      (∃ g ∈ Config.exCtrl.fields, g.lo ≤ 7 + 1 ∧ 7 + 1 < g.lo + g.width)) ∧
    (Config.exStatus ∈ Config.ex.regs ∧
      (∀ i, 16 ≤ i → i ≤ 31 → ∀ g ∈ Config.exStatus.fields, ¬ (g.lo ≤ i ∧ i < g.lo + g.width)) ∧
      31 + 1 = schemaWidth Config.ex) ∧
    (only gapBank ∈ gapBank.schema.regs ∧
      (∀ i, 0 ≤ i → i ≤ 3 → ∀ g ∈ (only gapBank).fields, ¬ (g.lo ≤ i ∧ i < g.lo + g.width)) ∧
      (∃ g ∈ (only gapBank).fields, g.lo ≤ 3 + 1 ∧ 3 + 1 < g.lo + g.width)) ∧
    (∀ d ∈ (zeroWidth 0xC).regs, ∀ i, 4 ≤ i → i ≤ 7 → ∀ g ∈ d.fields, ¬ (g.lo ≤ i ∧ i < g.lo + g.width)) := by
  refine ⟨fun sch hs => ⟨(fieldOverlap_iff sch).1 ?_, ?_⟩, by decide, ⟨?_, by decide, by decide⟩,
    ⟨by decide, ?_, by decide⟩, ⟨by decide, ?_, by decide⟩, ?_⟩
  · revert sch; decide
  · revert sch; decide
  · intro i h1 h2
    interval_cases i <;> decide
  · intro i h1 h2
    interval_cases i <;> decide
  · intro i h1 h2
    interval_cases i <;> decide
  · intro d hd i h1 h2
    revert d
    interval_cases i <;> decide
theorem witness_SchemaIsABankExactlyWhenEveryCheckHolds :
    (construct Config.ex).isSome = true ∧ (construct { Config.ex with permitted := [1, 2] }).isSome = false := by decide
theorem witness_ResetRestoresEveryField : Config.exStatus ∈ busy.bank.schema.regs ∧
    fieldAt 32 Config.exStatus 0 ∈ busy.storage Config.exStatus ∧
    (∀ d ∈ busy.bank.schema.regs, ∀ f ∈ busy.storage d, (d.offset, f.lo) ≠ (4, 6)) := by decide
theorem witness_ResetGivesThePowerOnValues : busy.Inv := busy_inv
theorem witness_ResetLeavesEnumFieldsValid : exec .rst busy = .next (nextOr busy (exec .rst busy)) ∧
    Config.exCtrl ∈ busy.bank.schema.regs ∧ fieldAt 32 Config.exCtrl 1 ∈ busy.fields Config.exCtrl ∧
    (fieldAt 32 Config.exCtrl 1).kind = .enum := ⟨rfl, by decide, by decide, by decide⟩
/-- Both sides of the clause about SIZE. -/
theorem witness_SizeAnswersTheSpan : busy.bank.schema.size < 2 ^ 64 ∧
    ¬ (State.ofBank hugeBank).bank.schema.size < 2 ^ 64 := by decide

/-! ### Witnesses: ISET -/

/-- DIV with the largest value that fits (V-IS6). -/
theorem witness_IsetStoresTheValueVerbatim : Config.exCtrl ∈ busy.bank.schema.regs ∧
    (0x0 : Word).toNat = Config.exCtrl.offset ∧ fieldAt 32 Config.exCtrl 3 ∈ busy.storage Config.exCtrl ∧
    (8 : BitVec 6).toNat = (fieldAt 32 Config.exCtrl 3).lo ∧ (fieldAt 32 Config.exCtrl 3).mode ≠ .readOnlyConstant ∧
    (0xFF : Word).toNat < 2 ^ (fieldAt 32 Config.exCtrl 3).width := by decide
/-- The five refusals, the last with the smallest value that does not fit (V-IS7 to V-IS12). -/
theorem witness_IsetRefusesBadTargetsInOrder :
    (∀ d ∈ busy.bank.schema.regs, d.offset ≠ (0x8 : Word).toNat) ∧
    (Config.exStatus ∈ busy.bank.schema.regs ∧ Config.exStatus.offset = (0x4 : Word).toNat ∧
      ∀ f ∈ busy.fields Config.exStatus, f.lo ≠ (1 : BitVec 6).toNat) ∧
    (fieldAt 32 Config.exStatus 3 ∈ busy.fields Config.exStatus ∧
      (fieldAt 32 Config.exStatus 3).lo = (6 : BitVec 6).toNat ∧ (fieldAt 32 Config.exStatus 3).kind = .reserved) ∧
    (fieldAt 32 Config.exStatus 4 ∈ busy.fields Config.exStatus ∧
      (fieldAt 32 Config.exStatus 4).lo = (8 : BitVec 6).toNat ∧
      (fieldAt 32 Config.exStatus 4).mode = .readOnlyConstant) ∧
    (Config.exCtrl ∈ busy.bank.schema.regs ∧ Config.exCtrl.offset = (0x0 : Word).toNat ∧
      fieldAt 32 Config.exCtrl 3 ∈ busy.fields Config.exCtrl ∧
      (fieldAt 32 Config.exCtrl 3).lo = (8 : BitVec 6).toNat ∧
      storageKind (fieldAt 32 Config.exCtrl 3).kind = true ∧
      (fieldAt 32 Config.exCtrl 3).mode ≠ .readOnlyConstant ∧
      2 ^ (fieldAt 32 Config.exCtrl 3).width ≤ (0x100 : Word).toNat) := by decide

/-! ### Witnesses: accesses -/

/-- Each branch of the chain, at its boundary: width 3, offset 1 for width 2, the first offset past SIZE - w, the
undeclared slot 0x8, and the last byte of the bank. -/
theorem witness_AccessChecksAbsorbInOrder :
    (3 : BitVec 4).toNat ∉ busy.bank.schema.permitted ∧
    ((2 : BitVec 4).toNat ∈ busy.bank.schema.permitted ∧ (0x1 : Word).toNat % (2 : BitVec 4).toNat ≠ 0) ∧
    busy.bank.schema.size < (0x10 : Word).toNat + (1 : BitVec 4).toNat ∧
    ((0xB : Word).toNat + (1 : BitVec 4).toNat ≤ busy.bank.schema.size ∧
      ∀ d ∈ busy.bank.schema.regs, d.offset ≠ (0xB : Word).toNat - (0xB : Word).toNat % busy.bank.schema.native) ∧
    ((0xF : Word).toNat + (1 : BitVec 4).toNat ≤ busy.bank.schema.size ∧
      ∃ d ∈ busy.bank.schema.regs, d.offset = (0xF : Word).toNat - (0xF : Word).toNat % busy.bank.schema.native) := by
  decide
theorem witness_IllegalWidthIsAbsorbed : (0 : BitVec 4).toNat ∉ busy.bank.schema.permitted ∧
    (15 : BitVec 4).toNat ∉ busy.bank.schema.permitted := by decide

/-! ### Witnesses: READ -/

theorem witness_ReadCompletesWhenCallbacksSpareConstants : Reaches busy 0x5 1 Config.exStatus ∧
    (∀ f ∈ busy.fields Config.exStatus, ∀ p, f.rcb = some p → sparesConstants (busy.storage Config.exStatus) p) ∧
    fieldAt 32 Config.exStatus 0 ∈ busy.storage Config.exStatus ∧
    (∀ f ∈ busy.fields Config.exStatus, ∀ p, f.rcb = some p → callbackKeeps p (fieldAt 32 Config.exStatus 0).lo) := by
  refine ⟨reaches_status_lane, status_reads_spare, by decide, ?_⟩
  intro f hf p hp
  have h : ∀ f ∈ busy.fields Config.exStatus, ∀ p ∈ f.rcb, (fieldAt 32 Config.exStatus 0).lo ∉ programAssigns p := by
    decide
  exact callbackKeeps_of_not_assigned (h f hf p hp)
theorem witness_ReadWithoutCallbacksReturnsTheLane : busy.Inv ∧ Reaches busy 0x1 1 Config.exCtrl ∧
    (∀ f ∈ busy.fields Config.exCtrl, f.rcb = none) := ⟨busy_inv, reaches_ctrl_lane, by decide⟩
theorem witness_NativeReadShowsEachField : busy.Inv ∧ Reaches busy 0x4 4 Config.exStatus ∧
    (4 : BitVec 4).toNat = busy.bank.schema.native ∧
    exec (.rd 0x4 4) busy = .next (nextOr busy (exec (.rd 0x4 4) busy)) := ⟨busy_inv, reaches_status, by decide, rfl⟩
theorem witness_ReadEventsAreInFieldOrder : Reaches busy 0x5 1 Config.exStatus ∧
    exec (.rd 0x5 1) busy = .next (nextOr busy (exec (.rd 0x5 1) busy)) := ⟨reaches_status_lane, rfl⟩
/-- Two read callbacks, the later of which reads what the earlier wrote; a field without one. -/
theorem witness_ReadCallbackSeesEarlierEffects : Reaches (State.ofBank chainBank) 0 1 (only chainBank) ∧
    exec (.rd 0 1) (State.ofBank chainBank) =
      .next (nextOr busy (exec (.rd 0 1) (State.ofBank chainBank))) ∧
    (((State.ofBank chainBank).fields (only chainBank))[0]? = some (fieldAt 8 (only chainBank) 0) ∧
      (fieldAt 8 (only chainBank) 0).rcb ≠ none) ∧
    (((State.ofBank chainBank).fields (only chainBank))[1]? = some (fieldAt 8 (only chainBank) 1) ∧
      (fieldAt 8 (only chainBank) 1).rcb ≠ none) ∧
    (((State.ofBank chainBank).fields (only chainBank))[2]? = some (fieldAt 8 (only chainBank) 2) ∧
      (fieldAt 8 (only chainBank) 2).rcb = none) :=
  ⟨reaches_chain, rfl, by decide, by decide, by decide⟩
/-- R146 by hand: A = 1 adds 1 to B (2 + 1 = 3), then B, now 3, is copied to C. -/
theorem test_read_callbacks_chain : observe [(0, 0), (0, 2), (0, 4)] (exec (.rd 0 1) (State.ofBank chainBank)) =
    some ([1, 3, 3], some ⟨0x3D, [.cbRead 0 0 1, .cbRead 0 2 3]⟩) := by decide
/-- Both outcomes: a read that completes and a read that is refused. -/
theorem witness_RegisterReadFailsOnlyByAConstantChange :
    (Reaches busy 0x4 4 Config.exStatus ∧ refusalOf (exec (.rd 0x4 4) busy) = none) ∧
    Reaches (State.ofBank badBank) 0 1 (only badBank) ∧
      refusalOf (exec (.rd 0 1) (State.ofBank badBank)) = some .callbackChangesConstant :=
  ⟨⟨reaches_status, by decide⟩, reaches_bad, by decide⟩
theorem witness_NarrowReadIsALaneOfTheNativeRead :
    (Reaches busy 0x5 1 Config.exStatus ∧ Reaches busy 0x4 4 Config.exStatus ∧
      (4 : BitVec 4).toNat = busy.bank.schema.native ∧
      exec (.rd 0x4 4) busy = .next (nextOr busy (exec (.rd 0x4 4) busy))) ∧
    Reaches (State.ofBank badBank) 0 1 (only badBank) ∧ (1 : BitVec 4).toNat = badBank.schema.native ∧
      exec (.rd 0 1) (State.ofBank badBank) = .refused .callbackChangesConstant :=
  ⟨⟨reaches_status_lane, reaches_status, by decide, rfl⟩, reaches_bad, by decide, rfl⟩
/-- RC under both READ_PACK_ORDERs (V-RD4). -/
theorem witness_ClearOnReadFollowsThePackOrder :
    (busy.Inv ∧ Reaches busy 0x4 4 Config.exStatus ∧ (4 : BitVec 4).toNat = busy.bank.schema.native ∧
      fieldAt 32 Config.exStatus 2 ∈ busy.storage Config.exStatus ∧ (fieldAt 32 Config.exStatus 2).mode ≠ .write ∧
      (fieldAt 32 Config.exStatus 2).mode ≠ .readOnlyConstant ∧
      (fieldAt 32 Config.exStatus 2).rcb = some (.assign (fieldAt 32 Config.exStatus 2).lo (.const 0)) ∧
      (∀ g ∈ busy.fields Config.exStatus, g ≠ fieldAt 32 Config.exStatus 2 → g.rcb = none) ∧
      busy.bank.schema.packOrder = .callbacksFirst) ∧
    ((stateOf packFirstBank [(4, 5, 1)]).Inv ∧
      Reaches (stateOf packFirstBank [(4, 5, 1)]) 0x4 4 Config.exStatus ∧
      packFirstBank.schema.packOrder = .packFirst) :=
  ⟨⟨busy_inv, reaches_status, by decide, by decide, by decide, by decide, by decide, by decide, by decide⟩,
    packFirst_inv, reaches_packFirst, by decide⟩
theorem witness_WriteOnlyFieldIsHiddenFromReads : Reaches busy 0x0 4 Config.exCtrl ∧
    (∀ g ∈ busy.fields Config.exCtrl, g.rcb = none) ∧ fieldAt 32 Config.exCtrl 5 ∈ busy.storage Config.exCtrl ∧
    (fieldAt 32 Config.exCtrl 5).mode = .write := ⟨reaches_ctrl, by decide, by decide, by decide⟩

/-! ### Witnesses: WRITE -/

/-- A lane that CNT straddles; RJ is outside it, and GO's callback keeps RJ. -/
theorem witness_WriteCompletesWhenCallbacksSpareConstants : Reaches busy 0xD 1 Config.exSel ∧
    (∀ f ∈ busy.fields Config.exSel, meetsLane (0xD % 4) 1 f = true → ∀ p, f.wcb = some p →
      sparesConstants (busy.storage Config.exSel) p) ∧
    fieldAt 32 Config.exSel 1 ∈ busy.storage Config.exSel ∧ meetsLane (0xD % 4) 1 (fieldAt 32 Config.exSel 1) = false ∧
    (∀ f ∈ busy.fields Config.exSel, meetsLane (0xD % 4) 1 f = true → ∀ p, f.wcb = some p →
      callbackKeeps p (fieldAt 32 Config.exSel 1).lo) := by
  refine ⟨reaches_sel_lane, sel_writes_spare, by decide, by decide, ?_⟩
  intro f hf _ p hp
  have h : ∀ f ∈ busy.fields Config.exSel, ∀ p ∈ f.wcb, (fieldAt 32 Config.exSel 1).lo ∉ programAssigns p := by decide
  exact callbackKeeps_of_not_assigned (h f hf p hp)
/-- A field in the lane and one outside it, a read-only field, a WriteOneToClear field, a Clamp field with a valid and
an invalid candidate. -/
theorem witness_WriteWithoutCallbacksSetsEachField :
    (Reaches busy 0x1 1 Config.exCtrl ∧ (∀ f ∈ busy.fields Config.exCtrl, f.wcb = none) ∧
      fieldAt 32 Config.exCtrl 3 ∈ busy.storage Config.exCtrl ∧ meetsLane 1 1 (fieldAt 32 Config.exCtrl 3) = true ∧
      (fieldAt 32 Config.exCtrl 3).mode = .readWrite ∧ meetsLane 1 1 (fieldAt 32 Config.exCtrl 5) = false) ∧
    (Reaches busy 0x4 4 Config.exStatus ∧ (∀ f ∈ busy.fields Config.exStatus, f.wcb = none) ∧
      meetsLane 0 4 (fieldAt 32 Config.exStatus 0) = true ∧
      (fieldAt 32 Config.exStatus 0).mode = .writeOneToClear ∧ (fieldAt 32 Config.exStatus 1).mode = .read) ∧
    ((fieldAt 32 Config.exCtrl 1).policy = .clamp 3 ∧
      (candidateBits 0 4 0 (fieldAt 32 Config.exCtrl 1) 1).toNat ∉ (fieldAt 32 Config.exCtrl 1).valid ∧
      (candidateBits 0 4 4 (fieldAt 32 Config.exCtrl 1) 1).toNat ∈ (fieldAt 32 Config.exCtrl 1).valid) :=
  ⟨⟨reaches_ctrl_lane, by decide, by decide, by decide, by decide, by decide⟩,
    ⟨reaches_status, by decide, by decide, by decide, by decide⟩, by decide⟩
theorem witness_WriteDiagnosticsAreInFieldOrder : Reaches busy 0x4 4 Config.exStatus ∧
    (∀ f ∈ busy.fields Config.exStatus, f.wcb = none) := ⟨reaches_status, by decide⟩
theorem witness_WriteRunsTheCallbacksOfProcessedFields : Reaches busy 0xD 1 Config.exSel ∧
    exec (.wr 0xD 1 0x10) busy = .next (nextOr busy (exec (.wr 0xD 1 0x10) busy)) := ⟨reaches_sel_lane, rfl⟩
theorem witness_NarrowWriteIsLaneIsolated : Reaches busy 0xD 1 Config.exSel ∧
    exec (.wr 0xD 1 0x10) busy = .next (nextOr busy (exec (.wr 0xD 1 0x10) busy)) ∧
    fieldAt 32 Config.exSel 0 ∈ busy.storage Config.exSel ∧ meetsLane 1 1 (fieldAt 32 Config.exSel 0) = false ∧
    (∀ f ∈ busy.fields Config.exSel, meetsLane 1 1 f = true → ∀ p, f.wcb = some p →
      callbackKeeps p (fieldAt 32 Config.exSel 0).lo) := by
  refine ⟨reaches_sel_lane, rfl, by decide, by decide, ?_⟩
  intro f hf hl p hp
  have h : ∀ f ∈ busy.fields Config.exSel, meetsLane 1 1 f = true → ∀ p ∈ f.wcb,
      (fieldAt 32 Config.exSel 0).lo ∉ programAssigns p := by decide
  exact callbackKeeps_of_not_assigned (h f hf hl p hp)
/-- V-WR10, on SEL with its two callbacks: GO (in the lane, with a callback) has LVL, RJ and CNT below it; CNT commits
without a callback; the Reserved field commits nothing. -/
theorem witness_WriteCallbackSeesCommittedFields : Reaches busy 0xC 4 Config.exSel ∧
    (∀ f ∈ busy.fields Config.exSel, meetsLane (0xC % 4) 4 f = true → ∀ p, f.wcb = some p →
      sparesConstants (busy.storage Config.exSel) p) ∧
    exec (.wr 0xC 4 0x1053) busy = .next (nextOr busy (exec (.wr 0xC 4 0x1053) busy)) ∧
    ((busy.fields Config.exSel)[3]? = some (fieldAt 32 Config.exSel 3) ∧
      meetsLane (0xC % 4) 4 (fieldAt 32 Config.exSel 3) = true ∧ writableField (fieldAt 32 Config.exSel 3) = true ∧
      (fieldAt 32 Config.exSel 3).wcb ≠ none) ∧
    ((busy.fields Config.exSel)[2]? = some (fieldAt 32 Config.exSel 2) ∧
      meetsLane (0xC % 4) 4 (fieldAt 32 Config.exSel 2) = true ∧ writableField (fieldAt 32 Config.exSel 2) = true ∧
      (fieldAt 32 Config.exSel 2).wcb = none) ∧
    ((busy.fields Config.exSel)[4]? = some (fieldAt 32 Config.exSel 4) ∧
      writableField (fieldAt 32 Config.exSel 4) = false) := by
  refine ⟨reaches_sel, ?_, rfl, by decide, by decide, by decide⟩
  intro f _ _ p _ g hg hm
  have h : ∀ g ∈ busy.storage Config.exSel, g.mode ≠ .readOnlyConstant := by decide
  exact absurd hm (h g hg)
theorem witness_WriteIgnoresDataAboveTheWidth :
    (0xFFFFFF12 : Word).toNat % 2 ^ (8 * (1 : BitVec 4).toNat) = (0x12 : Word).toNat % 2 ^ (8 * (1 : BitVec 4).toNat) :=
  by decide
theorem witness_WriteOneToClearClearsWrittenOnes : Reaches busy 0x4 4 Config.exStatus ∧
    (4 : BitVec 4).toNat = busy.bank.schema.native ∧ (∀ g ∈ busy.fields Config.exStatus, g.wcb = none) ∧
    fieldAt 32 Config.exStatus 0 ∈ busy.storage Config.exStatus ∧
    (fieldAt 32 Config.exStatus 0).mode = .writeOneToClear :=
  ⟨reaches_status, by decide, by decide, by decide, by decide⟩
theorem witness_EnumStaysValidUnderRejectAndClamp : Reaches busy 0x0 4 Config.exCtrl ∧
    (∀ g ∈ busy.fields Config.exCtrl, g.wcb = none) ∧ fieldAt 32 Config.exCtrl 1 ∈ busy.storage Config.exCtrl ∧
    (fieldAt 32 Config.exCtrl 1).kind = .enum ∧ (fieldAt 32 Config.exCtrl 1).policy ≠ .acceptVerbatim ∧
    (busy.field Config.exCtrl (fieldAt 32 Config.exCtrl 1)).toNat ∈ (fieldAt 32 Config.exCtrl 1).valid ∧
    exec (.wr 0x0 4 0) busy = .next (nextOr busy (exec (.wr 0x0 4 0) busy)) :=
  ⟨reaches_ctrl, by decide, by decide, by decide, by decide, by decide, rfl⟩

/-! ### Witnesses: across operations -/

theorem witness_CallbacksStayInTheirRegister :
    exec (.rd 0x4 4) busy = .next (nextOr busy (exec (.rd 0x4 4) busy)) ∧
    exec (.wr 0xC 4 0x1053) busy = .next (nextOr busy (exec (.wr 0xC 4 0x1053) busy)) := ⟨rfl, rfl⟩
/-- A view of STATUS that changes ID, and one that changes PEND only. -/
theorem witness_ApplyViewStoresVerbatimOrRefuses : Config.exStatus ∈ busy.bank.schema.regs ∧
    (∃ g ∈ busy.storage Config.exStatus, g.mode = .readOnlyConstant ∧
      viewValue g.lo [⟨0, 4, 0xB⟩, ⟨4, 1, 0⟩, ⟨5, 1, 1⟩, ⟨8, 8, 0xA4⟩] ≠ busy.field Config.exStatus g) ∧
    (∀ g ∈ busy.storage Config.exStatus, g.mode = .readOnlyConstant →
      viewValue g.lo [⟨0, 4, 0x2⟩, ⟨4, 1, 0⟩, ⟨5, 1, 1⟩, ⟨8, 8, 0xA5⟩] = busy.field Config.exStatus g) := by decide
theorem witness_ResponsesFitTheirWidth :
    [exec (.rd 0x4 4) busy, exec (.wr 0x4 4 3) busy, exec .rst busy, exec (.iset 0x4 4 1) busy,
      exec (.malformed 0x0005) busy].all (fun o => match o with
        | .next t => decide (t.replies.length = busy.replies.length + 1)
        | .fault _ => false
        | .refused _ => false) = true := by decide
theorem witness_WriteThenReadRoundTrips : (stateOf rtBank [(0, 4, 7)]).Inv ∧
    Reaches (stateOf rtBank [(0, 4, 7)]) 0 1 (only rtBank) ∧ (1 : BitVec 4).toNat = rtBank.schema.native ∧
    (0xF2 : Word).toNat < 2 ^ schemaWidth rtBank.schema ∧
    (∀ f ∈ layout 8 (only rtBank), f.kind = .reserved ∨ (storageKind f.kind = true ∧ f.mode = .readWrite)) ∧
    (∀ f ∈ layout 8 (only rtBank), f.wcb = none ∧ f.rcb = none) ∧
    (∀ f ∈ layout 8 (only rtBank), f.kind = .enum → (0xF2 : Word).toNat / 2 ^ f.lo % 2 ^ f.width ∈ f.valid) ∧
    (∀ f ∈ layout 8 (only rtBank), f.kind = .reserved → (0xF2 : Word).toNat / 2 ^ f.lo % 2 ^ f.width = 0) :=
  ⟨rt_inv, reaches_rt, by decide, by decide, by decide, by decide, by decide, by decide⟩
/-- V-RST2: STATUS, whose clear-on-read callback changes nothing on the reset view; PACK_FIRST; and a register without
Write-mode reset bits. -/
theorem witness_ReadAfterResetShowsTheResetValue :
    (Reaches busy 0x4 4 Config.exStatus ∧ (4 : BitVec 4).toNat = busy.bank.schema.native ∧
      busy.bank.schema.packOrder = .callbacksFirst ∧
      (∃ f ∈ busy.fields Config.exStatus, f.rcb ≠ none) ∧
      (∀ f ∈ busy.fields Config.exStatus, ∀ p, f.rcb = some p →
        runProgram (resetSlice Config.exStatus f) (resetSlice Config.exStatus f) p
            ((busy.storage Config.exStatus).map fun g => ⟨g.lo, g.width, resetSlice Config.exStatus g⟩) =
          (busy.storage Config.exStatus).map fun g => ⟨g.lo, g.width, resetSlice Config.exStatus g⟩)) ∧
    (Reaches (stateOf packFirstBank [(4, 5, 1)]) 0x4 4 Config.exStatus ∧
      (4 : BitVec 4).toNat = packFirstBank.schema.native ∧ packFirstBank.schema.packOrder = .packFirst ∧
      (∀ f ∈ layout 32 Config.exStatus, f.mode = .write → Config.exStatus.reset.toNat / 2 ^ f.lo % 2 ^ f.width = 0)) := by
  refine ⟨⟨reaches_status, by decide, by decide, by decide, ?_⟩, reaches_packFirst, by decide, by decide, by decide⟩
  intro f hf p hp
  have h : ∀ f ∈ busy.fields Config.exStatus, ∀ p ∈ f.rcb,
      runProgram (resetSlice Config.exStatus f) (resetSlice Config.exStatus f) p
          ((busy.storage Config.exStatus).map fun g => ⟨g.lo, g.width, resetSlice Config.exStatus g⟩) =
        (busy.storage Config.exStatus).map fun g => ⟨g.lo, g.width, resetSlice Config.exStatus g⟩ := by decide
  exact h f hf p hp
/-- A shape of two components and a callback that increments the first. -/
theorem witness_EveryCallbackIsAProgram :
    [(0, 4), (4, 1)].Pairwise (fun a b : Nat × Nat => a.1 ≠ b.1) ∧
    (∀ u : View, viewFits [(0, 4), (4, 1)] u → viewFits [(0, 4), (4, 1)] (viewAssign 0 (viewValue 0 u + 1) u)) :=
  ⟨by decide, fun _ h => viewFits_assign h _ _⟩

end Sys2Proof.Tests
end

section
/-! PROOFS. The statements of 10_state.md: the invariant, the schema, the partition of a register, RESET, and what reads
and writes without callbacks do to stored values. -/

namespace Sys2Proof.Machine

/-! ### One step -/

@[simp] theorem exec_rd (off : Word) (wb : BitVec 4) (s : State) : exec (.rd off wb) s = execRd off wb s := rfl
@[simp] theorem exec_wr (off : Word) (wb : BitVec 4) (data : Word) (s : State) :
    exec (.wr off wb data) s = execWr off wb data s := rfl
@[simp] theorem exec_rst (s : State) : exec .rst s = execRst s := rfl
@[simp] theorem exec_iset (off : Word) (flo : BitVec 6) (data : Word) (s : State) :
    exec (.iset off flo data) s = execIset off flo data s := rfl
@[simp] theorem exec_size (s : State) : exec .size s = execSize s := rfl
@[simp] theorem exec_malformed (h : BitVec 16) (s : State) : exec (.malformed h) s = execMalformed h s := rfl

/-- The values RESET leaves (42_bus_ops.md R194). -/
def resetVals (sch : Schema) (vals : Store) : Store := resetRegs (schemaWidth sch) (sortRegs sch.regs) vals

theorem powerOnVals_eq (sch : Schema) : powerOnVals sch = resetVals sch [] := rfl

theorem execRst_eq (s : State) : execRst s = .next (s.answer 0 (resetVals s.bank.schema s.vals) []) := rfl

/-- What any operation can do: it appends one reply, and it keeps the stored values, changes storage fields of one
register only, or is RESET. -/
theorem exec_next {i : Instr} {s t : State} (h : exec i s = .next t) :
    ∃ v vals events, t = s.answer v vals events ∧
      (vals = s.vals ∨ (∃ d ∈ s.bank.schema.regs, ChangesOnly d.offset (s.storage d) s.vals vals) ∨
        vals = resetVals s.bank.schema s.vals) := by
  cases i with
  | rd off wb =>
    rcases execRd_next h with ⟨a, -, rfl⟩ | ⟨d, R, c, hr, hc, rfl⟩
    · exact ⟨_, _, _, rfl, .inl rfl⟩
    · exact ⟨_, _, _, rfl, .inr (.inl ⟨d, hr.declared, regRead_changesOnly s.bank.ok hr.declared hc⟩)⟩
  | wr off wb data =>
    rcases execWr_next h with ⟨a, -, rfl⟩ | ⟨d, c, hr, hc, rfl⟩
    · exact ⟨_, _, _, rfl, .inl rfl⟩
    · exact ⟨_, _, _, rfl, .inr (.inl ⟨d, hr.declared, regWrite_changesOnly s.bank.ok hr.declared hc⟩)⟩
  | rst => cases h; exact ⟨_, _, _, rfl, .inr (.inr rfl)⟩
  | iset off flo data =>
    obtain ⟨d, hd, -, f, hf, -, hm, hx, rfl⟩ := execIset_next h
    exact ⟨_, _, _, rfl, .inr (.inl ⟨d, hd, changesOnly_put (storage_lo_lt s.bank.ok hd) hf hm s.vals fun _ => hx⟩)⟩
  | size => cases h; exact ⟨_, _, _, rfl, .inl rfl⟩
  | malformed hdr => cases h; exact ⟨_, _, _, rfl, .inl rfl⟩

theorem step_of_empty {s : State} (h : s.stream = []) : step s = .next s := by
  rw [step, fetch_of_empty h]; rfl

theorem step_of_request {s : State} {q : Record} {rest : List Record} (h : s.stream = q :: rest) :
    step s = exec (decode s.bank.schema.addrBits q) { s with stream := rest } := by
  rw [step, fetch_of_request h]

/-- A step idles or executes the head of the stream. -/
theorem step_next {s t : State} (h : step s = .next t) :
    t = s ∨ ∃ q rest, s.stream = q :: rest ∧
      exec (decode s.bank.schema.addrBits q) { s with stream := rest } = .next t := by
  cases hs : s.stream with
  | nil => rw [step_of_empty hs] at h; cases h; exact .inl rfl
  | cons q rest => rw [step_of_request hs] at h; exact .inr ⟨q, rest, rfl, h⟩

theorem exec_bank {i : Instr} {s t : State} (h : exec i s = .next t) : t.bank = s.bank := by
  obtain ⟨v, vals, events, rfl, -⟩ := exec_next h
  rfl

/-! ### The listed places (10_state.md R30) -/

theorem mem_sortRegs (rs : List RegDecl) (d : RegDecl) : d ∈ sortRegs rs ↔ d ∈ rs := List.mem_insertionSort _

theorem mem_storageKeys {sch : Schema} {k : Nat × Nat} :
    k ∈ storageKeys sch ↔ ∃ d ∈ sch.regs, ∃ f ∈ storageFields (schemaWidth sch) d, (d.offset, f.lo) = k := by
  simp only [storageKeys, List.mem_flatMap, List.mem_map, mem_sortRegs]

section
variable {sch : Schema} (h : schemaWellFormed sch = true)
include h

theorem sortRegs_offset_lt : (sortRegs sch.regs).Pairwise (fun a b => a.offset < b.offset) := by
  have hle : (sortRegs sch.regs).Pairwise (fun a b => a.offset ≤ b.offset) :=
    List.pairwise_insertionSort (fun a b : RegDecl => a.offset ≤ b.offset) sch.regs
  have hne : (sortRegs sch.regs).Pairwise (fun a b => a.offset ≠ b.offset) :=
    ((List.perm_insertionSort _ _).pairwise_iff fun {_ _} hab => Ne.symm hab).2 (regs_offset_pairwise h)
  exact (hle.and hne).imp fun hab => Nat.lt_of_le_of_ne hab.1 hab.2

/-- The listed places rise strictly: by register, then by field. -/
theorem storageKeys_rise : (storageKeys sch).Pairwise (keyLt · · = true) := by
  refine List.pairwise_flatMap.2 ⟨fun d hd => ?_, (sortRegs_offset_lt h).imp fun hab => ?_⟩
  · refine List.pairwise_map.2 ((storage_lo_lt h ((mem_sortRegs _ d).1 hd)).imp fun hlo => ?_)
    exact (keyLt_iff ..).2 (.inr ⟨rfl, hlo⟩)
  · intro k hk l hl
    obtain ⟨f, -, rfl⟩ := List.mem_map.1 hk
    obtain ⟨g, -, rfl⟩ := List.mem_map.1 hl
    exact (keyLt_iff ..).2 (.inl hab)

theorem store_wf_of_keys {vals : Store} (hk : vals.map Cell.key = storageKeys sch) : vals.wf = true := by
  rw [store_wf_iff, hk]
  exact storageKeys_rise h

end

/-! ### RESET (42_bus_ops.md R194) -/

/-- RegReset for registers of other places leaves a place as it was. -/
theorem val_resetRegs_of_not_mem (W : Nat) (ds : List RegDecl) (vals : Store) {reg lo : Nat}
    (h : ∀ d ∈ ds, ∀ f ∈ storageFields W d, (d.offset, f.lo) ≠ (reg, lo)) :
    (resetRegs W ds vals).val reg lo = vals.val reg lo := by
  induction ds generalizing vals with
  | nil => rfl
  | cons d ds ih =>
    rw [resetRegs, ih _ fun e he => h e (List.mem_cons_of_mem d he), val_regReset_of_not_mem]
    by_cases hr : reg = d.offset
    · exact .inr fun f hf e => h d List.mem_cons_self f hf (by rw [hr, e])
    · exact .inl hr

/-- RegReset for each register of a list leaves a storage field of one of them at its reset slice. -/
theorem val_resetRegs_of_mem {W : Nat} {ds : List RegDecl} (ho : ds.Pairwise (fun a b => a.offset < b.offset))
    (vals : Store) {d : RegDecl} (hd : d ∈ ds) (hlo : (storageFields W d).Pairwise (fun a b => a.lo < b.lo))
    {f : FieldDecl} (hf : f ∈ storageFields W d) :
    (resetRegs W ds vals).val d.offset f.lo = resetSlice d f := by
  induction ds generalizing vals with
  | nil => simp at hd
  | cons e es ih =>
    rw [List.pairwise_cons] at ho
    rw [resetRegs]
    rcases List.mem_cons.1 hd with rfl | hd
    · rw [val_resetRegs_of_not_mem]
      · exact val_regReset_of_mem d _ vals hf (hlo.imp Nat.ne_of_lt)
      · intro e he g _ hk
        exact Nat.ne_of_gt (ho.1 e he) (congrArg Prod.fst hk)
    · exact ih ho.2 _ hd

/-- RegReset of listed fields changes no key. -/
theorem keys_regReset (d : RegDecl) {fs : List FieldDecl} {vals : Store} (hw : vals.wf = true)
    (hk : ∀ f ∈ fs, (d.offset, f.lo) ∈ vals.map Cell.key) :
    (regReset d fs vals).map Cell.key = vals.map Cell.key := by
  induction fs generalizing vals with
  | nil => rfl
  | cons f fs ih =>
    have e := keys_put_of_mem hw (resetSlice d f) (hk f List.mem_cons_self)
    rw [regReset, ih (store_wf_put hw ..) fun g hg => e ▸ hk g (List.mem_cons_of_mem f hg), e]

theorem keys_resetRegs {W : Nat} {ds : List RegDecl} {vals : Store} (hw : vals.wf = true)
    (hk : ∀ d ∈ ds, ∀ f ∈ storageFields W d, (d.offset, f.lo) ∈ vals.map Cell.key) :
    (resetRegs W ds vals).map Cell.key = vals.map Cell.key := by
  induction ds generalizing vals with
  | nil => rfl
  | cons d ds ih =>
    have e := keys_regReset d hw (hk d List.mem_cons_self)
    rw [resetRegs, ih (store_wf_regReset d _ hw) fun g hg => e ▸ hk g (List.mem_cons_of_mem d hg), e]

/-- RESET leaves every storage field at its reset slice, whatever was stored (10_state.md R38). -/
theorem val_resetVals {sch : Schema} (h : schemaWellFormed sch = true) {d : RegDecl} (hd : d ∈ sch.regs)
    {f : FieldDecl} (hf : f ∈ storageFields (schemaWidth sch) d) (vals : Store) :
    (resetVals sch vals).val d.offset f.lo = resetSlice d f :=
  val_resetRegs_of_mem (sortRegs_offset_lt h) vals ((mem_sortRegs ..).2 hd) (storage_lo_lt h hd) hf

/-- RESET leaves every place that is no storage field's as it was. -/
theorem val_resetVals_elsewhere {sch : Schema} (vals : Store) {reg lo : Nat}
    (h : ∀ d ∈ sch.regs, ∀ f ∈ storageFields (schemaWidth sch) d, (d.offset, f.lo) ≠ (reg, lo)) :
    (resetVals sch vals).val reg lo = vals.val reg lo :=
  val_resetRegs_of_not_mem _ _ vals fun d hd => h d ((mem_sortRegs _ d).1 hd)

theorem keys_resetVals {sch : Schema} (h : schemaWellFormed sch = true) {vals : Store}
    (hk : vals.map Cell.key = storageKeys sch) : (resetVals sch vals).map Cell.key = storageKeys sch := by
  rw [resetVals, keys_resetRegs (store_wf_of_keys h hk), hk]
  intro d hd f hf
  rw [hk]
  exact mem_storageKeys.2 ⟨d, (mem_sortRegs _ d).1 hd, f, hf, rfl⟩

theorem resetSlice_toNat (d : RegDecl) (f : FieldDecl) :
    (resetSlice d f).toNat = d.reset.toNat / 2 ^ f.lo % 2 ^ f.width := slice_toNat ..

/-! ### The invariant (10_state.md R29, R30, R33) -/

/-- The invariant speaks of the bank and the stored values only. -/
theorem inv_congr {s t : State} (hb : t.bank = s.bank) (hv : t.vals = s.vals) (h : s.Inv) : t.Inv := by
  obtain ⟨b, vals, stream, replies⟩ := t
  subst hb hv
  exact ⟨h.keys, h.fits, h.constant⟩

/-- A field of another register keeps its value. -/
theorem changesOnly_other {sch : Schema} (h : schemaWellFormed sch = true) {d e : RegDecl} (hd : d ∈ sch.regs)
    (he : e ∈ sch.regs) (hne : e ≠ d) {storage : List FieldDecl} {a b : Store}
    (hc : ChangesOnly d.offset storage a b) (lo : Nat) : b.val e.offset lo = a.val e.offset lo :=
  hc.elsewhere e.offset lo (.inl fun ho => hne (reg_unique h he hd ho))

/-- A change of storage fields of one register keeps every ReadOnlyConstant field of the bank. -/
theorem changesOnly_constant {sch : Schema} (h : schemaWellFormed sch = true) {d e : RegDecl} (hd : d ∈ sch.regs)
    (he : e ∈ sch.regs) {a b : Store} (hc : ChangesOnly d.offset (storageFields (schemaWidth sch) d) a b)
    {f : FieldDecl} (hf : f ∈ storageFields (schemaWidth sch) e) (hm : f.mode = .readOnlyConstant) :
    b.val e.offset f.lo = a.val e.offset f.lo := by
  by_cases hed : e = d
  · subst hed; exact hc.constants f hf hm
  · exact changesOnly_other h hd he hed hc f.lo

theorem inv_of_changesOnly {s : State} (hi : s.Inv) {d : RegDecl} (hd : d ∈ s.bank.schema.regs) {vals : Store}
    (hc : ChangesOnly d.offset (s.storage d) s.vals vals) (v : Word) (events : List Event) :
    (s.answer v vals events).Inv where
  keys := by
    have hk : ∀ g ∈ s.storage d, (d.offset, g.lo) ∈ s.vals.map Cell.key := fun g hg => by
      rw [hi.keys]; exact mem_storageKeys.2 ⟨d, hd, g, hg, rfl⟩
    exact (hc.keys (store_wf_of_keys s.bank.ok hi.keys) hk).trans hi.keys
  fits e he f hf := by
    rw [field_def, answer_vals]
    by_cases hed : e = d
    · subst hed; exact hc.fits (hi.fits e he) f hf
    · rw [changesOnly_other s.bank.ok hd he hed hc]; exact hi.fits e he f hf
  constant e he f hf hm := (changesOnly_constant s.bank.ok hd he hc hf hm).trans (hi.constant e he f hf hm)

theorem inv_of_reset {s : State} (hi : s.Inv) (v : Word) (events : List Event) :
    (s.answer v (resetVals s.bank.schema s.vals) events).Inv where
  keys := keys_resetVals s.bank.ok hi.keys
  fits d hd f hf := by
    rw [field_def, answer_vals, val_resetVals s.bank.ok hd hf]
    exact slice_lt ..
  constant d hd f hf _ := val_resetVals s.bank.ok hd hf s.vals

theorem exec_inv {i : Instr} {s t : State} (hi : s.Inv) (h : exec i s = .next t) : t.Inv := by
  obtain ⟨v, vals, events, rfl, rfl | ⟨d, hd, hc⟩ | rfl⟩ := exec_next h
  · exact inv_congr (s := s) rfl rfl hi
  · exact inv_of_changesOnly hi hd hc v events
  · exact inv_of_reset hi v events

/-- Settles O12: the cases of `exec_next`, none of which leaves the invariant. -/
theorem stepKeepsTheInvariant : Obligations.StepKeepsTheInvariant := by
  intro s t hi h
  rcases step_next h with rfl | ⟨q, rest, -, hx⟩
  · exact hi
  · have hfetched : State.Inv { s with stream := rest } := inv_congr (s := s) rfl rfl hi
    exact exec_inv hfetched hx

/-- Settles O10. -/
theorem stepKeepsTheSchema : Obligations.StepKeepsTheSchema := by
  intro s t h
  rcases step_next h with rfl | ⟨q, rest, -, hx⟩
  · rfl
  · exact (exec_bank hx).trans rfl

/-! ### ReadOnlyConstant fields (10_state.md R33) -/

/-- An operation leaves a ReadOnlyConstant field as it was, or is RESET and leaves its reset slice. -/
theorem exec_constant {i : Instr} {s t : State} (h : exec i s = .next t) {d : RegDecl} (hd : d ∈ s.bank.schema.regs)
    {f : FieldDecl} (hf : f ∈ s.storage d) (hm : f.mode = .readOnlyConstant) :
    t.field d f = s.field d f ∨ t.field d f = resetSlice d f := by
  obtain ⟨v, vals, events, rfl, rfl | ⟨e, he, hc⟩ | rfl⟩ := exec_next h
  · exact .inl rfl
  · exact .inl (changesOnly_constant s.bank.ok he hd hc hf hm)
  · exact .inr (val_resetVals s.bank.ok hd hf s.vals)

/-- The field found at a bit offset is the one that starts there (10_state.md R29). -/
theorem findField_eq_some {sch : Schema} (h : schemaWellFormed sch = true) {d : RegDecl} (hd : d ∈ sch.regs)
    {lo : Nat} {f : FieldDecl} :
    (layout (schemaWidth sch) d).find? (fun f => decide (f.lo = lo)) = some f ↔
      f ∈ layout (schemaWidth sch) d ∧ f.lo = lo := by
  constructor
  · intro hf
    exact ⟨List.mem_of_find?_eq_some hf, by simpa using List.find?_some hf⟩
  · rintro ⟨hf, rfl⟩
    obtain ⟨g, hg⟩ : ∃ g, (layout (schemaWidth sch) d).find? (fun g => decide (g.lo = f.lo)) = some g :=
      Option.isSome_iff_exists.1 (List.find?_isSome.2 ⟨f, hf, by simp⟩)
    have hlo : g.lo = f.lo := by simpa using List.find?_some hg
    rw [hg, layout_lo_inj h hd (List.mem_of_find?_eq_some hg) hf hlo]

/-- ISET to a ReadOnlyConstant field is refused, whatever the value (40_field_ops.md R150). -/
theorem iset_constant {sch : Schema} (h : schemaWellFormed sch = true) {d : RegDecl} (hd : d ∈ sch.regs)
    {f : FieldDecl} (hf : f ∈ storageFields (schemaWidth sch) d) (hm : f.mode = .readOnlyConstant) (x : Word)
    (vals : Store) : iset sch d.offset f.lo x vals = .error .isetConstant := by
  obtain ⟨hl, hs⟩ := List.mem_filter.1 hf
  have hreg := (findReg_eq_some h).2 ⟨hd, rfl⟩
  have hfield := (findField_eq_some h hd).2 ⟨hl, rfl⟩
  simp [iset, hreg, hfield, hs, hm]

/-- Settles O15. -/
theorem readOnlyConstantAlwaysHoldsItsResetSlice : Obligations.ReadOnlyConstantAlwaysHoldsItsResetSlice := by
  intro b d f hd hl hk hm
  have hf : f ∈ storageFields (schemaWidth b.schema) d := List.mem_filter.2 ⟨hl, hk⟩
  refine ⟨val_resetVals b.ok hd hf [], ?_, ?_, ?_⟩
  · rintro i s t rfl hs h
    exact (exec_constant h hd hf hm).elim (·.trans hs) id
  · rintro s t rfl h
    cases h
    exact val_resetVals s.bank.ok hd hf s.vals
  · rintro s off flo data rfl ho hlo
    rw [exec_iset, execIset, ho, hlo, iset_constant s.bank.ok hd hf hm]
    rfl

/-! ### The partition of a register (10_state.md R29) -/

/-- Fields that lie apart share no bit. -/
theorem eq_of_common_bit {fs : List FieldDecl} (ho : fs.Pairwise (fun a b => a.lo + a.width ≤ b.lo))
    {f g : FieldDecl} (hf : f ∈ fs) (hg : g ∈ fs) {i : Nat} (hfi : f.lo ≤ i ∧ i < f.lo + f.width)
    (hgi : g.lo ≤ i ∧ i < g.lo + g.width) : g = f := by
  by_contra hne
  have hsym : Std.Symm (fun a b : FieldDecl => a.lo + a.width ≤ b.lo ∨ b.lo + b.width ≤ a.lo) :=
    ⟨fun _ _ hab => hab.symm⟩
  have := (ho.imp (S := fun a b => a.lo + a.width ≤ b.lo ∨ b.lo + b.width ≤ a.lo) .inl).forall hg hf hne
  omega

/-- Fields one after the other that cover all bits from `a` to `W` have the widths of that range together. -/
theorem sum_width_of_covers {W : Nat} {fs : List FieldDecl} {a : Nat} (haW : a ≤ W)
    (ho : fs.Pairwise (fun f g => f.lo + f.width ≤ g.lo))
    (hb : ∀ f ∈ fs, 1 ≤ f.width ∧ a ≤ f.lo ∧ f.lo + f.width ≤ W) (hc : ∀ i, a ≤ i → i < W → Covered fs i) :
    (fs.map FieldDecl.width).sum = W - a := by
  induction fs generalizing a with
  | nil =>
    have : ¬ a < W := fun hlt => not_covered_nil a (hc a le_rfl hlt)
    simp only [List.map_nil, List.sum_nil]
    omega
  | cons f fs ih =>
    rw [List.pairwise_cons] at ho
    obtain ⟨hw, ha, hW⟩ := hb f List.mem_cons_self
    -- Only the first field can cover the first bit.
    have hlo : f.lo = a := by
      rcases (covered_cons ..).1 (hc a le_rfl (by omega)) with hfa | ⟨g, hg, hga⟩
      · omega
      · have := ho.1 g hg
        omega
    have hrest : (fs.map FieldDecl.width).sum = W - (f.lo + f.width) := by
      refine ih hW ho.2 (fun g hg => ?_) fun i hi hiW => ?_
      · have := hb g (List.mem_cons_of_mem f hg)
        have := ho.1 g hg
        omega
      · rcases (covered_cons ..).1 (hc i (by omega) hiW) with hfi | hcov
        · omega
        · exact hcov
    rw [List.map_cons, List.sum_cons, hrest]
    omega

theorem layout_sum_width {sch : Schema} (h : schemaWellFormed sch = true) {d : RegDecl} (hd : d ∈ sch.regs) :
    ((layout (schemaWidth sch) d).map FieldDecl.width).sum = schemaWidth sch :=
  sum_width_of_covers (Nat.zero_le _) (layout_ordered h hd)
    (fun _ hf => ⟨(layout_bounds h hd hf).1, Nat.zero_le _, (layout_bounds h hd hf).2⟩)
    fun _ _ hi => layout_covers hi

/-- Settles O16. -/
theorem fieldsPartitionTheRegister : Obligations.FieldsPartitionTheRegister := by
  intro b d hd
  refine ⟨layout_lo_lt b.ok hd, fun i hi => ?_, layout_sum_width b.ok hd, fun f hf => (layout_bounds b.ok hd hf).2,
    fun f hf g hg => layout_lo_inj b.ok hd hf hg, fun f hf hnd => ?_⟩
  · obtain ⟨f, hf, hfi⟩ := layout_covers hi
    exact ⟨f, hf, hfi, fun g hg hgi => eq_of_common_bit (layout_ordered b.ok hd) hf hg hfi hgi⟩
  · obtain ⟨lo, width, rfl⟩ := (mem_layout hf).resolve_left hnd
    rfl

/-! ### The reset state (10_state.md R38) -/

/-- Settles O19: RESET writes the reset slice in every storage field from any values, and construction does the same
from none. -/
theorem resetRestoresEveryField : Obligations.ResetRestoresEveryField := by
  refine ⟨fun s => ⟨_, execRst_eq s, rfl, rfl, rfl, fun d hd f hf => ?_, fun reg lo hne => ?_⟩,
    fun b d hd => ⟨fun f hf => ?_, fun f hf hk => ?_⟩⟩
  · rw [field_def, answer_vals, val_resetVals s.bank.ok hd hf, resetSlice_toNat]
  · exact val_resetVals_elsewhere s.vals hne
  · rw [field_def, ofBank_vals, powerOnVals_eq, val_resetVals b.ok hd hf, resetSlice_toNat]
  · have hs : storageKind f.kind = false := by rcases hk with hk | hk <;> rw [hk] <;> rfl
    rw [← resetSlice_toNat, reserved_reset_zero b.ok hd hf hs]
    rfl

/-! ### READ without read callbacks (41_register_ops.md R160) -/

/-- Without read callbacks the read loop keeps the values and emits the TaggedReads. -/
theorem readFields_of_no_rcb (reg : Nat) (storage : List FieldDecl) {fs : List FieldDecl}
    (h : ∀ f ∈ fs, f.rcb = none) (c : Ctx) :
    readFields reg storage fs c = .ok ⟨c.vals, c.events ++ fs.flatMap (taggedEvents reg)⟩ := by
  induction fs generalizing c with
  | nil => simp [readFields]
  | cons f fs ih =>
    have hf : fireRcb reg storage f ⟨c.vals, c.events ++ taggedEvents reg f⟩ =
        .ok ⟨c.vals, c.events ++ taggedEvents reg f⟩ := by rw [fireRcb, h f List.mem_cons_self]
    rw [readFields, hf]
    simpa using ih (fun g hg => h g (List.mem_cons_of_mem f hg)) ⟨c.vals, c.events ++ taggedEvents reg f⟩

/-- Without read callbacks READ_PACK_ORDER does not matter. -/
theorem regRead_of_no_rcb {sch : Schema} {d : RegDecl} (h : ∀ f ∈ layout (schemaWidth sch) d, f.rcb = none)
    (vals : Store) : regRead sch d vals = .ok (pack d.offset vals (layout (schemaWidth sch) d),
      ⟨vals, (layout (schemaWidth sch) d).flatMap (taggedEvents d.offset)⟩) := by
  rw [regRead, readFields_of_no_rcb _ _ h]
  have hp : packedValue sch d vals vals = pack d.offset vals (layout (schemaWidth sch) d) := by
    rw [packedValue]; split <;> rfl
  simp [hp]

/-- Packing looks at the readable fields only (40_field_ops.md R120, R121). -/
theorem pack_congr {reg : Nat} {a b : Store} {fs : List FieldDecl}
    (h : ∀ f ∈ fs, readableField f = true → a.val reg f.lo = b.val reg f.lo) : pack reg a fs = pack reg b fs := by
  induction fs with
  | nil => rfl
  | cons f fs ih =>
    have hf : packField reg a f = packField reg b f := by
      rw [packField, packField]
      split
      · rename_i hr; rw [h f List.mem_cons_self hr]
      · rfl
    rw [pack, pack, hf, ih fun g hg => h g (List.mem_cons_of_mem f hg)]

/-- A stored value of a field that is not readable does not show in the packed value. -/
theorem pack_put_of_not_readable {sch : Schema} (h : schemaWellFormed sch = true) {d : RegDecl} (hd : d ∈ sch.regs)
    {f : FieldDecl} (hf : f ∈ layout (schemaWidth sch) d) (hr : readableField f = false) (vals : Store) (x : Word) :
    pack d.offset (vals.put d.offset f.lo x) (layout (schemaWidth sch) d) =
      pack d.offset vals (layout (schemaWidth sch) d) := by
  refine pack_congr fun g hg hgr => val_put_of_ne vals x fun hk => ?_
  have hgf : g = f := layout_lo_inj h hd hg hf (congrArg Prod.snd hk)
  rw [hgf, hr] at hgr
  cases hgr

/-- Settles O35: neither the packed value nor the events depend on a Write-mode field's stored value. -/
theorem writeOnlyFieldIsHiddenFromReads : Obligations.WriteOnlyFieldIsHiddenFromReads := by
  intro s off wb d f x hr hrcb hf hm
  have hl : f ∈ layout (schemaWidth s.bank.schema) d := (List.mem_filter.1 hf).1
  have hnr : readableField f = false := by simp [readableField, hm]
  have hx : Reaches { s with vals := s.vals.put d.offset f.lo x } off.toNat wb.toNat d :=
    ⟨hr.legal, hr.aligned, hr.inRange, hr.declared, hr.slot⟩
  rw [exec_rd, exec_rd, execRd_reaches hr, execRd_reaches hx, regRead_of_no_rcb hrcb, regRead_of_no_rcb hrcb,
    pack_put_of_not_readable s.bank.ok hr.declared hl hnr]
  exact ⟨_, _, rfl, rfl, rfl⟩

/-! ### WRITE without write callbacks (41_register_ops.md R162) -/

/-- The value a field holds after its effect: the committed one, or the stored one. -/
def FieldEffect.valueFrom (e : FieldEffect) (o : Word) : Word := e.stored.getD o

/-- FieldWrite without a write callback leaves the effect's value in the field and every other place as it was. -/
theorem fieldWrite_val {reg : Nat} {storage : List FieldDecl} {f : FieldDecl} (hf : f.wcb = none) {v M : Word}
    {c c' : Ctx} (h : fieldWrite reg storage f v M c = .ok c') (r lo : Nat) :
    c'.vals.val r lo = if (r, lo) = (reg, f.lo) then (fieldEffect reg c.vals f v M).valueFrom (c.vals.val reg f.lo)
      else c.vals.val r lo := by
  rcases fieldWrite_ok h with ⟨hs, rfl⟩ | ⟨n, hs, hw⟩
  · rw [FieldEffect.valueFrom, hs]
    split
    · rename_i hk; cases hk; rfl
    · rfl
  · rw [fireWcb, hf] at hw
    cases hw
    rw [FieldEffect.valueFrom, hs, val_put]
    rfl

/-- Without write callbacks the write loop leaves the places of fields outside the list as they were. -/
theorem writeFields_val_of_not_mem {reg : Nat} {storage fs : List FieldDecl} (hw : ∀ f ∈ fs, f.wcb = none)
    {v M : Word} {c c' : Ctx} (h : writeFields reg storage v M fs c = .ok c') {r lo : Nat}
    (hr : ∀ f ∈ fs, (r, lo) ≠ (reg, f.lo)) : c'.vals.val r lo = c.vals.val r lo := by
  induction fs generalizing c with
  | nil => cases h; rfl
  | cons f fs ih =>
    have ih' := fun {c} => ih (c := c) (fun g hg => hw g (List.mem_cons_of_mem f hg))
      (hr := fun g hg => hr g (List.mem_cons_of_mem f hg))
    rcases writeFields_cons_ok h with ⟨-, hrest⟩ | ⟨c1, -, hf, hrest⟩
    · exact ih' hrest
    · rw [ih' hrest, fieldWrite_val (hw f List.mem_cons_self) hf, if_neg (hr f List.mem_cons_self)]

/-- Without write callbacks a field of the loop takes the value of its effect if it is processed, and keeps its own
otherwise. -/
theorem writeFields_val_of_mem {reg : Nat} {storage fs : List FieldDecl} (hw : ∀ f ∈ fs, f.wcb = none)
    (hlo : fs.Pairwise (fun a b => a.lo < b.lo)) {v M : Word} {c c' : Ctx}
    (h : writeFields reg storage v M fs c = .ok c') {f : FieldDecl} (hf : f ∈ fs) :
    c'.vals.val reg f.lo = if processed M f then (fieldEffect reg c.vals f v M).valueFrom (c.vals.val reg f.lo)
      else c.vals.val reg f.lo := by
  induction fs generalizing c with
  | nil => simp at hf
  | cons g gs ih =>
    rw [List.pairwise_cons] at hlo
    have hwg : ∀ e ∈ gs, e.wcb = none := fun e he => hw e (List.mem_cons_of_mem g he)
    rcases List.mem_cons.1 hf with rfl | hf
    · have hlater : ∀ e ∈ gs, (reg, f.lo) ≠ (reg, e.lo) := fun e he hk =>
        Nat.ne_of_lt (hlo.1 e he) (congrArg Prod.snd hk)
      rcases writeFields_cons_ok h with ⟨hp, hrest⟩ | ⟨c1, hp, h1, hrest⟩
      · rw [writeFields_val_of_not_mem hwg hrest hlater]; simp [hp]
      · rw [writeFields_val_of_not_mem hwg hrest hlater, fieldWrite_val (hw f List.mem_cons_self) h1]; simp [hp]
    · rcases writeFields_cons_ok h with ⟨-, hrest⟩ | ⟨c1, -, h1, hrest⟩
      · exact ih hwg hlo.2 hrest hf
      · have hearlier : c1.vals.val reg f.lo = c.vals.val reg f.lo := by
          rw [fieldWrite_val (hw g List.mem_cons_self) h1, if_neg]
          exact fun hk => Nat.ne_of_gt (hlo.1 f hf) (congrArg Prod.snd hk)
        rw [ih hwg hlo.2 hrest hf, fieldEffect, fieldEffect, hearlier]

/-- What RegWrite without write callbacks leaves in a field of the register. -/
theorem regWrite_val {sch : Schema} (h : schemaWellFormed sch = true) {d : RegDecl} (hd : d ∈ sch.regs)
    (hw : ∀ g ∈ layout (schemaWidth sch) d, g.wcb = none) {v M : Word} {vals : Store} {c : Ctx}
    (hr : regWrite sch d v M vals = .ok c) {f : FieldDecl} (hf : f ∈ layout (schemaWidth sch) d) :
    c.vals.val d.offset f.lo =
      if processed M f then (fieldEffect d.offset vals f v M).valueFrom (vals.val d.offset f.lo)
      else vals.val d.offset f.lo :=
  writeFields_val_of_mem hw (layout_lo_lt h hd) hr hf

/-! ### Enum policies (40_field_ops.md R129, R130) -/

/-- Reject and Clamp store a member of V for a candidate outside it, when the stored value is one. -/
theorem policyValue_valid {p : Policy} {valid : List Nat} {o c : Word} (hp : p ≠ .acceptVerbatim)
    (ho : o.toNat ∈ valid) (hc : ∀ v, p = .clamp v → v ∈ valid ∧ v < 2 ^ 64) :
    (policyValue p o c).toNat ∈ valid := by
  cases p with
  | reject => exact ho
  | clamp v =>
    obtain ⟨hv, hlt⟩ := hc v rfl
    rwa [policyValue, BitVec.toNat_ofNat, Nat.mod_eq_of_lt hlt]
  | acceptVerbatim => exact absurd rfl hp

/-- Write or ReadWrite commits the candidate to an Enum field, or what the policy makes of one outside V. -/
theorem writeEffect_enum {f : FieldDecl} (hk : f.kind = .enum) (hm : f.mode = .write ∨ f.mode = .readWrite)
    (o vin fm : Word) : (writeEffect f o vin fm).stored = some
      (if (mergedCandidate o vin fm).toNat ∈ f.valid then mergedCandidate o vin fm
        else policyValue f.policy o (mergedCandidate o vin fm)) := by
  rcases hm with hm | hm <;> by_cases hv : (mergedCandidate o vin fm).toNat ∈ f.valid <;>
    simp [writeEffect, hk, hm, hv]

/-- A write leaves an Enum field in V under Reject and Clamp; CE8 excludes WriteOneToClear. -/
theorem writeEffect_valid {f : FieldDecl} (hk : f.kind = .enum) (hw1c : f.mode ≠ .writeOneToClear)
    (hp : f.policy ≠ .acceptVerbatim) (hc : ∀ v, f.policy = .clamp v → v ∈ f.valid ∧ v < 2 ^ 64) {o : Word}
    (ho : o.toNat ∈ f.valid) (vin fm : Word) : ((writeEffect f o vin fm).valueFrom o).toNat ∈ f.valid := by
  have hread : writableField f = false → ((writeEffect f o vin fm).valueFrom o).toNat ∈ f.valid := fun hnw => by
    have hs : (writeEffect f o vin fm).stored = none :=
      of_not_not fun hne => by rw [writeEffect_stored.1 hne] at hnw; cases hnw
    rwa [FieldEffect.valueFrom, hs]
  have hwrite : f.mode = .write ∨ f.mode = .readWrite → ((writeEffect f o vin fm).valueFrom o).toNat ∈ f.valid :=
    fun hm => by
      rw [FieldEffect.valueFrom, writeEffect_enum hk hm, Option.getD_some]
      split
      · assumption
      · exact policyValue_valid hp ho hc
  cases hm : f.mode with
  | read => exact hread (by simp [writableField, hm])
  | readOnlyConstant => exact hread (by simp [writableField, hm])
  | writeOneToClear => exact absurd hm hw1c
  | write => exact hwrite (.inl hm)
  | readWrite => exact hwrite (.inr hm)

/-- A clamp target is a discriminant that a word holds (43_construction.md R221, CE2, CE6, CE7). -/
theorem clamp_valid_word {sch : Schema} (h : schemaWellFormed sch = true) {d : RegDecl} (hd : d ∈ sch.regs)
    {f : FieldDecl} (hf : f ∈ d.fields) (hk : f.kind = .enum) {v : Nat} (hp : f.policy = .clamp v) :
    v ∈ f.valid ∧ v < 2 ^ 64 := by
  have hv := clamp_valid h hd hf hk hp
  have hwidth : f.width ≤ 64 := by
    have := declared_bounds h hd hf
    have := schemaWidth_le h
    omega
  exact ⟨hv, lt_of_lt_of_le (enum_valid_lt h hd hf hk hv) (Nat.pow_le_pow_right (by decide) hwidth)⟩

/-- Settles O44: the field takes the value of its own effect, which stays in V, or keeps its value. -/
theorem enumStaysValidUnderRejectAndClamp : Obligations.EnumStaysValidUnderRejectAndClamp := by
  intro s t off wb data d f hr hw hf hk hp hv h
  obtain ⟨hdecl, -⟩ := mem_storageFields.1 hf
  rw [exec_wr, execWr_reaches hr] at h
  cases hc : regWrite s.bank.schema d (placeWriteData s.bank.schema off.toNat wb.toNat data)
      (laneMask s.bank.schema off.toNat wb.toNat) s.vals with
  | error e => rw [hc] at h; cases h
  | ok c =>
    rw [hc] at h
    cases h
    rw [field_def, answer_vals, regWrite_val s.bank.ok hr.declared hw hc (mem_layout_of_declared hdecl)]
    split
    · exact writeEffect_valid hk (fun hm => w1c_not_enum s.bank.ok hr.declared hdecl hm hk) hp
        (fun v => clamp_valid_word s.bank.ok hr.declared hdecl hk) hv _ _
    · exact hv

end Sys2Proof.Machine
end

section
/-! PROOFS. The statements of 30_encoding.md: the fields of a header as numbers, what a record decodes to, the record as
one number, the stream of requests, and the responses. -/

namespace Sys2Proof.Machine

/-! ### The header's fields as numbers (30_encoding.md R92) -/

theorem headerOp_toNat (h : BitVec 16) : (headerOp h).toNat = h.toNat % 8 := by
  rw [headerOp, BitVec.extractLsb'_toNat, Nat.shiftRight_zero]

theorem headerWb_eq (h : BitVec 16) : headerWb h = BitVec.ofNat 4 (h.toNat / 2 ^ 3) := by
  rw [headerWb, BitVec.extractLsb', Nat.shiftRight_eq_div_pow]

theorem headerFlo_eq (h : BitVec 16) : headerFlo h = BitVec.ofNat 6 (h.toNat / 2 ^ 8) := by
  rw [headerFlo, BitVec.extractLsb', Nat.shiftRight_eq_div_pow]

theorem headerRsv0_eq_zero_iff (h : BitVec 16) : headerRsv0 h = 0 ↔ h.toNat / 2 ^ 7 % 2 = 0 := by
  rw [headerRsv0, ← BitVec.toNat_inj, BitVec.extractLsb'_toNat, Nat.shiftRight_eq_div_pow]
  rfl

theorem headerRsv1_eq_zero_iff (h : BitVec 16) : headerRsv1 h = 0 ↔ h.toNat / 2 ^ 14 = 0 := by
  have hlt : h.toNat / 2 ^ 14 < 2 ^ 2 := by have := h.isLt; omega
  rw [headerRsv1, ← BitVec.toNat_inj, BitVec.extractLsb'_toNat, Nat.shiftRight_eq_div_pow, Nat.mod_eq_of_lt hlt]
  rfl

theorem and_twoPow_eq_zero_iff {w : Nat} (x : BitVec w) {i : Nat} (hi : i < w) :
    x &&& BitVec.twoPow w i = 0#w ↔ x.toNat / 2 ^ i % 2 ≠ 1 := by
  have hpow : BitVec.twoPow w i ≠ 0#w := fun e => by
    simpa [hi] using congrArg (BitVec.getLsbD · i) e
  rw [BitVec.and_twoPow, ← BitVec.testBit_toNat, Nat.testBit_eq_decide_div_mod_eq]
  simp [hpow]

/-- The bits of a header that R96 reserves are those under the mask 0xC080. -/
theorem reservedBits_eq_zero_iff (h : BitVec 16) :
    h &&& 0xC080#16 = 0#16 ↔ h.toNat / 2 ^ 7 % 2 = 0 ∧ h.toNat / 2 ^ 14 = 0 := by
  have hmask : 0xC080#16 = BitVec.twoPow 16 7 ||| (BitVec.twoPow 16 14 ||| BitVec.twoPow 16 15) := by decide
  have hand : h &&& 0xC080#16 = (h &&& BitVec.twoPow 16 7) |||
      ((h &&& BitVec.twoPow 16 14) ||| (h &&& BitVec.twoPow 16 15)) := by
    rw [hmask]; ext i hi; simp only [BitVec.getElem_and, BitVec.getElem_or, Bool.and_or_distrib_left]
  rw [hand, BitVec.or_eq_zero_iff, BitVec.or_eq_zero_iff, and_twoPow_eq_zero_iff h (by decide),
    and_twoPow_eq_zero_iff h (by decide), and_twoPow_eq_zero_iff h (by decide)]
  have := h.isLt
  omega

theorem headerMalformed_iff (h : BitVec 16) : headerMalformed h = true ↔
    (h.toNat / 2 ^ 7 % 2 ≠ 0 ∨ h.toNat / 2 ^ 14 ≠ 0) ∨ 5 ≤ h.toNat % 8 := by
  have hop : (h &&& 0x0007#16).toNat = h.toNat % 8 := by
    rw [BitVec.toNat_and]; exact Nat.and_two_pow_sub_one_eq_mod h.toNat 3
  rw [headerMalformed, Bool.or_eq_true, decide_eq_true_iff, decide_eq_true_iff, hop, Ne, reservedBits_eq_zero_iff,
    not_and_or]

/-! ### What a record decodes to (30_encoding.md R93, R96, R101) -/

section
variable (ab : Nat) {q : Record}

theorem decode_of_reserved_bit (h : q.h.toNat / 2 ^ 7 % 2 ≠ 0 ∨ q.h.toNat / 2 ^ 14 ≠ 0) :
    decode ab q = .malformed q.h := by
  rw [decode, if_pos]
  rwa [Ne, Ne, headerRsv0_eq_zero_iff, headerRsv1_eq_zero_iff]

variable (h7 : q.h.toNat / 2 ^ 7 % 2 = 0) (h14 : q.h.toNat / 2 ^ 14 = 0)
include h7 h14

theorem no_reserved_bit : ¬ (headerRsv0 q.h ≠ 0 ∨ headerRsv1 q.h ≠ 0) := by
  rw [Ne, Ne, headerRsv0_eq_zero_iff, headerRsv1_eq_zero_iff]
  exact fun h => h.elim (· h7) (· h14)

theorem decode_rd (hop : q.h.toNat % 8 = 0) :
    decode ab q = .rd (offsetOperand ab q.offset) (BitVec.ofNat 4 (q.h.toNat / 2 ^ 3)) := by
  rw [decode, if_neg (no_reserved_bit h7 h14), headerOp_toNat, hop, headerWb_eq]
  rfl

theorem decode_wr (hop : q.h.toNat % 8 = 1) :
    decode ab q = .wr (offsetOperand ab q.offset) (BitVec.ofNat 4 (q.h.toNat / 2 ^ 3)) q.data := by
  rw [decode, if_neg (no_reserved_bit h7 h14), headerOp_toNat, hop, headerWb_eq]
  rfl

theorem decode_rst (hop : q.h.toNat % 8 = 2) : decode ab q = .rst := by
  rw [decode, if_neg (no_reserved_bit h7 h14), headerOp_toNat, hop]
  rfl

theorem decode_iset (hop : q.h.toNat % 8 = 3) :
    decode ab q = .iset (offsetOperand ab q.offset) (BitVec.ofNat 6 (q.h.toNat / 2 ^ 8)) q.data := by
  rw [decode, if_neg (no_reserved_bit h7 h14), headerOp_toNat, hop, headerFlo_eq]
  rfl

theorem decode_size (hop : q.h.toNat % 8 = 4) : decode ab q = .size := by
  rw [decode, if_neg (no_reserved_bit h7 h14), headerOp_toNat, hop]
  rfl

omit h7 h14 in
/-- A header without an operation: a reserved bit, or OP above 4. -/
theorem decode_malformed (h : headerMalformed q.h = true) : decode ab q = .malformed q.h := by
  rcases (headerMalformed_iff _).1 h with hrsv | hop
  · exact decode_of_reserved_bit ab hrsv
  · have hcases : q.h.toNat % 8 = 5 ∨ q.h.toNat % 8 = 6 ∨ q.h.toNat % 8 = 7 := by omega
    rw [decode, headerOp_toNat]
    rcases hcases with hop | hop | hop <;> rw [hop] <;> exact ite_self _

end

/-- Settles O3: the reserved bits are looked at before OP. -/
theorem reservedHeaderBitMakesRequestMalformed : Obligations.ReservedHeaderBitMakesRequestMalformed :=
  fun ab _ h => decode_of_reserved_bit ab h

/-- Settles O4: the decoder's equations, one for each value of OP. -/
theorem opSelectsTheOperation : Obligations.OpSelectsTheOperation := fun ab _ h7 h14 =>
  ⟨decode_rd ab h7 h14, decode_wr ab h7 h14, decode_rst ab h7 h14, decode_iset ab h7 h14, decode_size ab h7 h14,
    fun hop => decode_malformed ab ((headerMalformed_iff _).2 (.inr hop))⟩

/-! ### Operands and don't-care fields (30_encoding.md R97, R100) -/

theorem ofNat_congr_mod {w a b : Nat} (h : a % 2 ^ w = b % 2 ^ w) : BitVec.ofNat w a = BitVec.ofNat w b :=
  BitVec.eq_of_toNat_eq (by rwa [BitVec.toNat_ofNat, BitVec.toNat_ofNat])

theorem offsetOperand_congr {ab : Nat} {x y : Word} (h : x.toNat % 2 ^ ab = y.toNat % 2 ^ ab) :
    offsetOperand ab x = offsetOperand ab y := by rw [offsetOperand, h, offsetOperand]

theorem offsetFits_offsetOperand (ab : Nat) (off : Word) : offsetFits ab (offsetOperand ab off) = true := by
  rw [offsetFits, decide_eq_true_iff, offsetOperand, BitVec.toNat_ofNat]
  exact lt_of_le_of_lt (Nat.mod_le ..) (Nat.mod_lt _ (Nat.two_pow_pos ab))

theorem offsetOperand_of_fits {ab : Nat} {off : Word} (h : offsetFits ab off = true) :
    offsetOperand ab off = off := by
  rw [offsetOperand, Nat.mod_eq_of_lt (of_decide_eq_true h), BitVec.ofNat_toNat, BitVec.setWidth_eq]

/-- Settles O5: both records decode by the equation of their OP, whose operands are those they agree on. -/
theorem dontCareFieldsHaveNoEffect : Obligations.DontCareFieldsHaveNoEffect := by
  intro ab p q hp7 hp14 hq7 hq14 hop
  refine ⟨fun h hwb hoff => ?_, fun h hwb hoff hdata => ?_, fun h => ?_, fun h hflo hoff hdata => ?_, fun h => ?_⟩
  · rw [decode_rd ab hp7 hp14 h, decode_rd ab hq7 hq14 (hop ▸ h), offsetOperand_congr hoff, ofNat_congr_mod hwb]
  · rw [decode_wr ab hp7 hp14 h, decode_wr ab hq7 hq14 (hop ▸ h), offsetOperand_congr hoff, ofNat_congr_mod hwb,
      hdata]
  · rw [decode_rst ab hp7 hp14 h, decode_rst ab hq7 hq14 (hop ▸ h)]
  · rw [decode_iset ab hp7 hp14 h, decode_iset ab hq7 hq14 (hop ▸ h), offsetOperand_congr hoff, ofNat_congr_mod hflo,
      hdata]
  · rw [decode_size ab hp7 hp14 h, decode_size ab hq7 hq14 (hop ▸ h)]

/-- Settles O2: a header is MALFORMED, or its OP is one of five and the OFFSET operand is cut to ADDR_BITS bits. -/
theorem everyRecordDecodesToAWellFormedOperation : Obligations.EveryRecordDecodesToAWellFormedOperation := by
  intro ab q _ _
  cases hm : headerMalformed q.h with
  | true => rw [decode_malformed ab hm]; exact hm
  | false =>
    have hnot := mt (headerMalformed_iff q.h).2 (Bool.eq_false_iff.1 hm)
    obtain ⟨h7, h14⟩ : q.h.toNat / 2 ^ 7 % 2 = 0 ∧ q.h.toNat / 2 ^ 14 = 0 := by omega
    have hop : q.h.toNat % 8 = 0 ∨ q.h.toNat % 8 = 1 ∨ q.h.toNat % 8 = 2 ∨ q.h.toNat % 8 = 3 ∨
      q.h.toNat % 8 = 4 := by omega
    rcases hop with hop | hop | hop | hop | hop
    · rw [decode_rd ab h7 h14 hop]; exact offsetFits_offsetOperand ..
    · rw [decode_wr ab h7 h14 hop]; exact offsetFits_offsetOperand ..
    · rw [decode_rst ab h7 h14 hop]; rfl
    · rw [decode_iset ab h7 h14 hop]; exact offsetFits_offsetOperand ..
    · rw [decode_size ab h7 h14 hop]; rfl

/-! ### The encoder, and the record as one number (30_encoding.md R91, R92, log entry 6) -/

theorem append_toNat {m n : Nat} (x : BitVec m) (y : BitVec n) : (x ++ y).toNat = x.toNat * 2 ^ n + y.toNat := by
  rw [BitVec.toNat_append, ← Nat.shiftLeft_add_eq_or_of_lt y.isLt, Nat.shiftLeft_eq]

/-- A header's fields at their weights; the reserved ones are 0. -/
theorem encodeHeader_toNat (op : BitVec 3) (wb : BitVec 4) (flo : BitVec 6) :
    (encodeHeader op wb flo).toNat = flo.toNat * 2 ^ 8 + wb.toNat * 2 ^ 3 + op.toNat := by
  rw [encodeHeader, append_toNat, append_toNat, append_toNat, append_toNat, BitVec.toNat_ofNat, BitVec.toNat_ofNat]
  omega

section
variable (op : BitVec 3) (wb : BitVec 4) (flo : BitVec 6)

theorem encodeHeader_rsv0 : (encodeHeader op wb flo).toNat / 2 ^ 7 % 2 = 0 := by
  rw [encodeHeader_toNat]; omega

theorem encodeHeader_rsv1 : (encodeHeader op wb flo).toNat / 2 ^ 14 = 0 := by
  rw [encodeHeader_toNat]; omega

theorem encodeHeader_op : (encodeHeader op wb flo).toNat % 8 = op.toNat := by
  rw [encodeHeader_toNat]; omega

theorem encodeHeader_wb : BitVec.ofNat 4 ((encodeHeader op wb flo).toNat / 2 ^ 3) = wb := by
  rw [encodeHeader_toNat]
  exact BitVec.eq_of_toNat_eq (by rw [BitVec.toNat_ofNat]; omega)

theorem encodeHeader_flo : BitVec.ofNat 6 ((encodeHeader op wb flo).toNat / 2 ^ 8) = flo := by
  rw [encodeHeader_toNat]
  exact BitVec.eq_of_toNat_eq (by rw [BitVec.toNat_ofNat]; omega)

end

/-- Decoding an operation's record gives the operation back. -/
theorem decode_encode {ab : Nat} {i : Instr} (h : i.wellFormed ab = true) : decode ab (encode i) = i := by
  have h7 := encodeHeader_rsv0
  have h14 := encodeHeader_rsv1
  have hop := encodeHeader_op
  cases i with
  | rd off wb =>
    rw [encode, decode_rd ab (h7 ..) (h14 ..) (hop ..), offsetOperand_of_fits h, encodeHeader_wb]
  | wr off wb data =>
    rw [encode, decode_wr ab (h7 ..) (h14 ..) (hop ..), offsetOperand_of_fits h, encodeHeader_wb]
  | rst => exact decode_rst ab (h7 ..) (h14 ..) (hop ..)
  | iset off flo data =>
    rw [encode, decode_iset ab (h7 ..) (h14 ..) (hop ..), offsetOperand_of_fits h, encodeHeader_flo]
  | size => exact decode_size ab (h7 ..) (h14 ..) (hop ..)
  | malformed hdr => exact decode_malformed ab h

theorem offsetFits_encode {ab : Nat} {i : Instr} (h : i.wellFormed ab = true) :
    offsetFits ab (encode i).offset = true := by
  have hzero : offsetFits ab 0 = true := decide_eq_true (Nat.two_pow_pos ab)
  cases i with
  | rd off wb => exact h
  | wr off wb data => exact h
  | rst => exact hzero
  | iset off flo data => exact h
  | size => exact hzero
  | malformed hdr => exact hzero

section
variable {ab : Nat} {q : Record} (hoff : q.offset.toNat < 2 ^ ab)
include hoff

/-- H, and above it OFFSET, and above that DATA. -/
theorem recordBits_eq_nested :
    recordBits ab q = q.h.toNat + 2 ^ 16 * (q.offset.toNat + 2 ^ ab * q.data.toNat) := by
  rw [recordBits, Nat.mod_eq_of_lt hoff, Nat.pow_add]; ring

theorem recordBits_above_header : recordBits ab q / 2 ^ 16 = q.offset.toNat + 2 ^ ab * q.data.toNat := by
  rw [recordBits_eq_nested hoff, Nat.add_mul_div_left _ _ (Nat.two_pow_pos 16), Nat.div_eq_of_lt q.h.isLt,
    Nat.zero_add]

/-- A record is read back from its bits, when OFFSET has no bits at ADDR_BITS or above. -/
theorem recordOfBits_recordBits : recordOfBits ab (recordBits ab q) = q := by
  have hH : BitVec.ofNat 16 (recordBits ab q) = q.h := BitVec.eq_of_toNat_eq (by
    rw [BitVec.toNat_ofNat, recordBits_eq_nested hoff, Nat.add_mul_mod_self_left, Nat.mod_eq_of_lt q.h.isLt])
  have hOffset : recordBits ab q / 2 ^ 16 % 2 ^ ab = q.offset.toNat := by
    rw [recordBits_above_header hoff, Nat.add_mul_mod_self_left, Nat.mod_eq_of_lt hoff]
  have hData : recordBits ab q / 2 ^ (16 + ab) = q.data.toNat := by
    rw [Nat.pow_add, ← Nat.div_div_eq_div_mul, recordBits_above_header hoff,
      Nat.add_mul_div_left _ _ (Nat.two_pow_pos ab), Nat.div_eq_of_lt hoff, Nat.zero_add]
  rw [recordOfBits, hH, hOffset, hData, BitVec.ofNat_toNat, BitVec.ofNat_toNat, BitVec.setWidth_eq,
    BitVec.setWidth_eq]

end

/-- Settles O1: the record is read back from its bits, and decoding undoes encoding. -/
theorem encodedRequestDecodesBack : Obligations.EncodedRequestDecodesBack := by
  intro ab i _ _ h
  rw [decodeBits, encodeBits, recordOfBits_recordBits (of_decide_eq_true (offsetFits_encode h)), decode_encode h]

/-- Settles O6, by evaluating the decoder on each word. -/
theorem vectorWordsDecode : Obligations.VectorWordsDecode := by
  unfold Obligations.VectorWordsDecode
  decide

/-! ### The stream of requests (30_encoding.md R90) -/

/-- Settles O7. -/
theorem stepRunsTheNextRequest : Obligations.StepRunsTheNextRequest := fun _ _ _ hs => step_of_request hs

/-- Settles O8. -/
theorem stepWithoutRequestIdles : Obligations.StepWithoutRequestIdles := fun _ hs => step_of_empty hs

/-- Settles O9: the step executes the head of the stream, and every operation that completes is one answer. -/
theorem eachRequestGetsOneReplyInOrder : Obligations.EachRequestGetsOneReplyInOrder := by
  intro s t q rest hs h
  rw [step_of_request hs] at h
  obtain ⟨v, vals, events, rfl, -⟩ := exec_next h
  exact ⟨rfl, ⟨v, events⟩, rfl⟩

/-! ### DATA and the responses (30_encoding.md R98, R99, R102) -/

theorem trunc_congr_mod {n : Nat} {x y : Word} (h : x.toNat % 2 ^ n = y.toNat % 2 ^ n) : trunc n x = trunc n y :=
  BitVec.eq_of_toNat_eq (by rwa [trunc_toNat, trunc_toNat])

/-- Settles O42: the placed write data is the same, and WRITE looks at nothing else of DATA. -/
theorem writeIgnoresDataAboveTheWidth : Obligations.WriteIgnoresDataAboveTheWidth := by
  intro s off wb x y h
  have hplaced : placeWriteData s.bank.schema off.toNat wb.toNat x =
      placeWriteData s.bank.schema off.toNat wb.toNat y := by
    rw [placeWriteData, trunc_congr_mod h, placeWriteData]
  rw [exec_wr, exec_wr, execWr, hplaced, execWr]

/-- Settles O23: the diagnostic is absorbed. -/
theorem malformedRequestIsAbsorbed : Obligations.MalformedRequestIsAbsorbed := fun _ _ => rfl

/-- The one reply that an answer adds carries its response. -/
theorem rdata_of_answer {s : State} {v : Word} {vals : Store} {events : List Event} {r : Reply}
    (h : (s.answer v vals events).replies = s.replies ++ [r]) : r.rdata = v := by
  rw [answer_replies] at h
  have hr : ⟨v, events⟩ = r := List.singleton_inj.1 (List.append_cancel_left h)
  rw [← hr]

/-- Settles O47: a READ answers 0 or the lane's slice of the register's value; the others answer 0. -/
theorem responsesFitTheirWidth : Obligations.ResponsesFitTheirWidth := by
  intro s t r hr
  refine ⟨fun off wb h => ?_, fun off wb data h => ?_, fun h => ?_, fun off flo data h => ?_, fun hdr h => ?_⟩
  · rcases execRd_next h with ⟨a, -, rfl⟩ | ⟨d, R, c, -, -, rfl⟩
    · rw [rdata_of_answer hr]; exact Nat.two_pow_pos _
    · rw [rdata_of_answer hr]; exact slice_lt ..
  · rcases execWr_next h with ⟨a, -, rfl⟩ | ⟨d, c, -, -, rfl⟩ <;> exact rdata_of_answer hr
  · cases h; exact rdata_of_answer hr
  · obtain ⟨d, -, -, f, -, -, -, -, rfl⟩ := execIset_next h
    exact rdata_of_answer hr
  · cases h; exact rdata_of_answer hr

end Sys2Proof.Machine
end

section
/-! PROOFS. The statements of 40_field_ops.md: ISET, ApplyView, the loops of READ and WRITE field by field, and that every
callback is a program. -/

namespace Sys2Proof.Machine

/-! ### ISET (40_field_ops.md R150, R151) -/

/-- ISET to a field of a register: the refusals of the field in their order, else the value is stored. -/
theorem iset_of_field {sch : Schema} (h : schemaWellFormed sch = true) {d : RegDecl} (hd : d ∈ sch.regs)
    {f : FieldDecl} (hf : f ∈ layout (schemaWidth sch) d) (x : Word) (vals : Store) :
    iset sch d.offset f.lo x vals =
      if storageKind f.kind = false then .error .isetNonStorage
      else if f.mode = .readOnlyConstant then .error .isetConstant
      else if 2 ^ f.width ≤ x.toNat then .error .isetValueTooWide
      else .ok (vals.put d.offset f.lo x) := by
  have hreg := (findReg_eq_some h).2 ⟨hd, rfl⟩
  have hfield := (findField_eq_some h hd).2 ⟨hf, rfl⟩
  rw [iset]
  simp only [hreg, hfield]
  by_cases hx : 2 ^ f.width ≤ x.toNat
  · simp only [hx, if_true]
  · rw [trunc_eq_self (by omega)]

theorem execIset_of_field {s : State} {d : RegDecl} (hd : d ∈ s.bank.schema.regs) {f : FieldDecl}
    (hf : f ∈ s.fields d) {off : Word} (ho : d.offset = off.toNat) {flo : BitVec 6} (hlo : f.lo = flo.toNat)
    (data : Word) : execIset off flo data s =
      if storageKind f.kind = false then .refused .isetNonStorage
      else if f.mode = .readOnlyConstant then .refused .isetConstant
      else if 2 ^ f.width ≤ data.toNat then .refused .isetValueTooWide
      else .next (s.answer 0 (s.vals.put d.offset f.lo data) []) := by
  rw [execIset, ← ho, ← hlo, iset_of_field s.bank.ok hd hf]
  repeat' split
  all_goals rfl

/-- Settles O24. -/
theorem isetStoresTheValueVerbatim : Obligations.IsetStoresTheValueVerbatim := by
  intro s off flo data d f hd ho hf hlo hm hx
  obtain ⟨hl, hk⟩ := List.mem_filter.1 hf
  refine ⟨s.answer 0 (s.vals.put d.offset f.lo data) [], ?_, rfl, rfl, rfl, val_put_self .., fun reg lo hne => ?_⟩
  · rw [exec_iset, execIset_of_field hd hl ho.symm hlo.symm]
    simp [hk, hm, hx]
  · exact val_put_of_ne _ _ hne

/-- Settles O25: one clause for each branch of ISET, in the order of R150. -/
theorem isetRefusesBadTargetsInOrder : Obligations.IsetRefusesBadTargetsInOrder := by
  intro s off flo data
  refine ⟨fun hnone => ?_, fun d hd ho => ⟨fun hnone => ?_, fun f hf hlo => ?_⟩⟩
  · rw [exec_iset, execIset, iset, findReg_eq_none.2 hnone]
    rfl
  · have hreg := (findReg_eq_some s.bank.ok).2 ⟨hd, ho⟩
    have hfield : (layout (schemaWidth s.bank.schema) d).find? (fun f => decide (f.lo = flo.toNat)) = none :=
      List.find?_eq_none.2 fun f hf => by simpa using hnone f hf
    simp [execIset, iset, hreg, hfield, finishIset]
  · rw [exec_iset, execIset_of_field hd hf ho hlo]
    refine ⟨fun hk => ?_, fun hk hm => ?_, fun hk hm hx => ?_⟩
    · have hs : storageKind f.kind = false := by rcases hk with hk | hk <;> rw [hk] <;> rfl
      rw [if_pos hs]
    · simp [hk, hm]
    · simp [hk, hm, hx]

/-! ### ApplyView (40_field_ops.md R142, R144) -/

/-- Settles O46. -/
theorem applyViewStoresVerbatimOrRefuses : Obligations.ApplyViewStoresVerbatimOrRefuses := by
  intro s d u hd
  have hlo : (s.storage d).Pairwise (fun a b => a.lo < b.lo) := storage_lo_lt s.bank.ok hd
  refine ⟨fun ⟨g, hg, hm, hne⟩ => ?_, fun hc => ?_⟩
  · cases h : applyView d.offset u (s.storage d) s.vals with
    | error e => rw [applyView_error h]
    | ok vals => exact absurd ((applyView_values hlo h g hg).2 hm) hne
  · obtain ⟨vals, h⟩ := (applyView_isOk_iff hlo).2 hc
    exact ⟨vals, h, fun g hg => (applyView_values hlo h g hg).1, fun reg lo => applyView_elsewhere h reg lo⟩

/-- Settles O45: an access changes fields of the register it reaches, which starts at its slot, or nothing. -/
theorem callbacksStayInTheirRegister : Obligations.CallbacksStayInTheirRegister := by
  intro s t off wb data h
  have hslot : ∀ d vals, Reaches s off.toNat wb.toNat d → ChangesOnly d.offset (s.storage d) s.vals vals →
      ∀ reg lo, reg ≠ off.toNat - off.toNat % s.bank.schema.native → vals.val reg lo = s.vals.val reg lo :=
    fun d vals hr hc reg lo hne => hc.elsewhere reg lo (.inl (hr.slot ▸ hne))
  rcases h with h | h
  · rcases execRd_next h with ⟨a, -, rfl⟩ | ⟨d, R, c, hr, hc, rfl⟩
    · exact ⟨rfl, fun _ _ _ => rfl⟩
    · exact ⟨rfl, hslot d _ hr (regRead_changesOnly s.bank.ok hr.declared hc)⟩
  · rcases execWr_next h with ⟨a, -, rfl⟩ | ⟨d, c, hr, hc, rfl⟩
    · exact ⟨rfl, fun _ _ _ => rfl⟩
    · exact ⟨rfl, hslot d _ hr (regWrite_changesOnly s.bank.ok hr.declared hc)⟩

/-! ### The loops of RegRead and RegWrite, field by field (40_field_ops.md R137) -/

/-- A pass over a list of fields: each field in turn takes the stored values on and emits its events, as `T` says. -/
inductive Turns (T : FieldDecl → Store → Store → List Event → Prop) :
    List FieldDecl → Store → Store → List Event → Prop where
  | nil (a : Store) : Turns T [] a a []
  | cons {f : FieldDecl} {fs : List FieldDecl} {a b c : Store} {ev ev' : List Event} (hf : T f a b ev)
      (hfs : Turns T fs b c ev') : Turns T (f :: fs) a c (ev ++ ev')

/-- A pass as a sequence: the stored values before each field, and the events of each field. -/
theorem turns_sequence {T : FieldDecl → Store → Store → List Event → Prop} {fs : List FieldDecl} {a c : Store}
    {ev : List Event} (h : Turns T fs a c ev) : ∃ (vals : Nat → Store) (evs : Nat → List Event),
      vals 0 = a ∧ vals fs.length = c ∧ ev = (List.range fs.length).flatMap evs ∧
      ∀ i f, fs[i]? = some f → T f (vals i) (vals (i + 1)) (evs i) := by
  induction h with
  | nil a => exact ⟨fun _ => a, fun _ => [], rfl, rfl, rfl, by simp⟩
  | @cons f fs a b c ev ev' hf _ ih =>
    obtain ⟨vals, evs, rfl, hc, rfl, hturn⟩ := ih
    refine ⟨fun i => i.casesOn a vals, fun i => i.casesOn ev evs, rfl, hc, ?_, fun i g hg => ?_⟩
    · rw [List.length_cons, List.range_succ_eq_map, List.flatMap_cons, List.flatMap_map]
      rfl
    · cases i with
      | zero => cases hg; exact hf
      | succ i => exact hturn i g hg

/-- What the read loop does at one field, from the stored values `a` (40_field_ops.md R134, R145, R146): the TaggedRead,
then the callback on the field's stored value and the view. -/
structure ReadTurn (reg : Nat) (storage : List FieldDecl) (f : FieldDecl) (a b : Store) (ev : List Event) : Prop where
  quiet : f.rcb = none → b = a ∧ ev = taggedEvents reg f
  callback : ∀ p, f.rcb = some p →
    runCallback reg storage p (a.val reg f.lo) (a.val reg f.lo) a = .ok b ∧
    ev = taggedEvents reg f ++ [.cbRead reg f.lo (a.val reg f.lo)]

theorem turns_of_readFields {reg : Nat} {storage fs : List FieldDecl} {c c' : Ctx}
    (h : readFields reg storage fs c = .ok c') :
    ∃ ev, c'.events = c.events ++ ev ∧ Turns (ReadTurn reg storage) fs c.vals c'.vals ev := by
  induction fs generalizing c with
  | nil => cases h; exact ⟨[], by simp, .nil _⟩
  | cons f fs ih =>
    obtain ⟨c1, hf, hfs⟩ := readFields_cons_ok h
    obtain ⟨ev, hev, hturns⟩ := ih hfs
    rcases fireRcb_ok hf with ⟨hn, rfl⟩ | ⟨p, vals, hp, hrun, rfl⟩
    · exact ⟨taggedEvents reg f ++ ev, by rw [hev, List.append_assoc],
        .cons ⟨fun _ => ⟨rfl, rfl⟩, by simp [hn]⟩ hturns⟩
    · refine ⟨taggedEvents reg f ++ [.cbRead reg f.lo (c.vals.val reg f.lo)] ++ ev, by rw [hev]; simp,
        .cons ⟨by simp [hp], fun q hq => ?_⟩ hturns⟩
      cases hp.symm.trans hq
      exact ⟨hrun, rfl⟩

/-- READ of a register that completes: the loop's turns, and the reply. -/
theorem execRd_turns {s t : State} {off : Word} {wb : BitVec 4} {d : RegDecl} (hr : Reaches s off.toNat wb.toNat d)
    (h : exec (.rd off wb) s = .next t) :
    ∃ vals ev, Turns (ReadTurn d.offset (s.storage d)) (s.fields d) s.vals vals ev ∧
      ChangesOnly d.offset (s.storage d) s.vals vals ∧
      t = s.answer (extractLane s.bank.schema off.toNat wb.toNat (packedValue s.bank.schema d s.vals vals))
        vals ev := by
  rw [exec_rd, execRd_reaches hr] at h
  cases hc : regRead s.bank.schema d s.vals with
  | error e => rw [hc] at h; cases h
  | ok p =>
    obtain ⟨R, c⟩ := p
    rw [hc] at h
    cases h
    obtain ⟨hloop, rfl⟩ := regRead_ok hc
    obtain ⟨ev, hev, hturns⟩ := turns_of_readFields hloop
    exact ⟨c.vals, ev, hturns, regRead_changesOnly s.bank.ok hr.declared hc, by rw [hev]; rfl⟩

/-- A read turn's events: the field's TaggedRead and then its Cb(Read), where it has them. -/
theorem readTurn_events {reg : Nat} {storage : List FieldDecl} {f : FieldDecl} {a b : Store} {ev : List Event}
    (h : ReadTurn reg storage f a b ev) :
    ev = taggedEvents reg f ++ (if f.rcb.isSome then [.cbRead reg f.lo (a.val reg f.lo)] else []) := by
  cases hf : f.rcb with
  | none => simpa using (h.quiet hf).2
  | some p => simpa using (h.callback p hf).2

theorem readTurn_sites {reg : Nat} {storage : List FieldDecl} {f : FieldDecl} {a b : Store} {ev : List Event}
    (h : ReadTurn reg storage f a b ev) :
    ev.map eventSite = taggedEvents reg f ++ (if f.rcb.isSome then [.cbRead reg f.lo 0] else []) := by
  have htag : (taggedEvents reg f).map eventSite = taggedEvents reg f := by
    rw [taggedEvents]; split <;> rfl
  rw [readTurn_events h, List.map_append, htag]
  split <;> rfl

/-- The diagnostics of a read turn are TaggedReads of the value 0. -/
theorem readTurn_diagnostics {reg : Nat} {storage : List FieldDecl} {f : FieldDecl} {a b : Store} {ev : List Event}
    (h : ReadTurn reg storage f a b ev) {e : Event} (he : e ∈ ev) (hcb : isCallbackEvent e = false) :
    e = .diag (.field .taggedRead reg f.lo 0) := by
  rw [readTurn_events h, taggedEvents, List.mem_append] at he
  rcases he with he | he <;> split at he
  · exact List.mem_singleton.1 he
  · cases he
  · rw [List.mem_singleton.1 he] at hcb; cases hcb
  · cases he

/-- What holds of every turn's events holds of every event of the pass. -/
theorem turns_forall_events {T : FieldDecl → Store → Store → List Event → Prop} {P : Event → Prop}
    {fs : List FieldDecl} {a c : Store} {ev : List Event} (h : Turns T fs a c ev)
    (hT : ∀ f a b ev, T f a b ev → ∀ e ∈ ev, P e) : ∀ e ∈ ev, P e := by
  induction h with
  | nil a => simp
  | cons hf _ ih =>
    intro e he
    exact (List.mem_append.1 he).elim (hT _ _ _ _ hf e) (ih e)

/-- A list made of each turn's events is made of the fields one by one when each turn's part depends on its field
only. -/
theorem turns_flatMap_events {T : FieldDecl → Store → Store → List Event → Prop} {F : List Event → List Event}
    (hnil : F [] = []) (happ : ∀ x y, F (x ++ y) = F x ++ F y) {G : FieldDecl → List Event} {fs : List FieldDecl}
    {a c : Store} {ev : List Event} (h : Turns T fs a c ev)
    (hT : ∀ f ∈ fs, ∀ a b ev, T f a b ev → F ev = G f) : F ev = fs.flatMap G := by
  induction h with
  | nil a => exact hnil
  | @cons f fs _ _ _ _ _ hf _ ih =>
    rw [happ, List.flatMap_cons, hT f List.mem_cons_self _ _ _ hf, ih fun g hg => hT g (List.mem_cons_of_mem f hg)]

/-- Settles O31. -/
theorem readEventsAreInFieldOrder : Obligations.ReadEventsAreInFieldOrder := by
  intro s t off wb d hr h
  obtain ⟨vals, ev, hturns, -, rfl⟩ := execRd_turns hr h
  refine ⟨_, rfl, ?_, ?_, fun f _ hk v => ?_⟩
  · exact turns_flatMap_events (F := List.map eventSite) rfl (fun _ _ => List.map_append) hturns
      fun f _ _ _ _ hf => readTurn_sites hf
  · exact turns_forall_events hturns fun f _ _ _ hf e he hcb => ⟨f.lo, readTurn_diagnostics hf he hcb⟩
  · simp [packField, readableField, hk, storageKind]

/-- Settles O51: the stored values before each field are what the earlier callbacks left. -/
theorem readCallbackSeesEarlierEffects : Obligations.ReadCallbackSeesEarlierEffects := by
  intro s t off wb d hr h
  obtain ⟨vals, ev, hturns, hc, rfl⟩ := execRd_turns hr h
  obtain ⟨st, evs, h0, rfl, rfl, hturn⟩ := turns_sequence hturns
  refine ⟨fun i lo => (st i).val d.offset lo, evs, _, fun g _ => congrArg (Store.val d.offset g.lo) h0,
    fun i f hf => ⟨fun hn => ?_, fun p hp => ?_⟩, fun g _ => rfl, hc.elsewhere, rfl, rfl, rfl⟩
  · obtain ⟨hst, hev⟩ := (hturn i f hf).quiet hn
    exact ⟨hev, fun g _ => congrArg (Store.val d.offset g.lo) hst⟩
  · obtain ⟨hrun, hev⟩ := (hturn i f hf).callback p hp
    exact ⟨hev, fun g hg => runCallback_values (storage_lo_lt s.bank.ok hr.declared) hrun hg⟩

/-! ### What a native READ shows (40_field_ops.md R120, R121, R147) -/

/-- A field contributes its stored value at its own bits and nothing elsewhere. -/
theorem packField_getLsbD {reg : Nat} {vals : Store} {f : FieldDecl}
    (hv : readableField f = true → (vals.val reg f.lo).toNat < 2 ^ f.width) (i : Nat) :
    (packField reg vals f).getLsbD i = (readableField f && decide (f.lo ≤ i ∧ i < f.lo + f.width) &&
      (vals.val reg f.lo <<< f.lo).getLsbD i) := by
  rw [packField]
  by_cases hr : readableField f = true
  · by_cases hi : f.lo ≤ i ∧ i < f.lo + f.width
    · simp [hr, hi]
    · have hclear : f.lo ≤ i → (vals.val reg f.lo).getLsbD (i - f.lo) = false := fun hlo =>
        (fits_iff_getLsbD ..).1 (hv hr) _ (by omega)
      by_cases hlo : f.lo ≤ i
      · simp [hr, hi, hclear hlo]
      · simp [hr, hi, Nat.lt_of_not_le hlo]
  · simp [hr]

theorem pack_getLsbD (reg : Nat) (vals : Store) (fs : List FieldDecl) (i : Nat) :
    (pack reg vals fs).getLsbD i = fs.any fun f => (packField reg vals f).getLsbD i := by
  induction fs with
  | nil => simp [pack]
  | cons f fs ih => rw [pack, BitVec.getLsbD_or, ih, List.any_cons]

/-- A field's bits of the packed value: its stored value where a read shows it, else 0. -/
theorem slice_pack {reg : Nat} {vals : Store} {fs : List FieldDecl}
    (ho : fs.Pairwise (fun a b => a.lo + a.width ≤ b.lo)) (hW : ∀ f ∈ fs, f.lo + f.width ≤ 64)
    (hv : ∀ f ∈ fs, readableField f = true → (vals.val reg f.lo).toNat < 2 ^ f.width) {f : FieldDecl} (hf : f ∈ fs) :
    slice (pack reg vals fs) f.lo f.width = if readableField f then vals.val reg f.lo else 0 := by
  apply BitVec.eq_of_getLsbD_eq
  intro i _
  rw [slice_getLsbD]
  by_cases hi : i < f.width
  · have hown : ∀ g ∈ fs, (packField reg vals g).getLsbD (f.lo + i) = true → g = f := fun g hg hb => by
      rw [packField_getLsbD (hv g hg)] at hb
      simp only [Bool.and_eq_true, decide_eq_true_eq] at hb
      exact eq_of_common_bit ho hf hg (by omega) hb.1.2
    have hany : (pack reg vals fs).getLsbD (f.lo + i) = (packField reg vals f).getLsbD (f.lo + i) := by
      rw [pack_getLsbD, Bool.eq_iff_iff, List.any_eq_true]
      exact ⟨fun ⟨g, hg, hb⟩ => hown g hg hb ▸ hb, fun hb => ⟨f, hf, hb⟩⟩
    have hlt : f.lo + i < 64 := by have := hW f hf; omega
    rw [hany, packField_getLsbD (hv f hf)]
    split <;> simp [*]
  · split
    · rename_i hr
      simp [hi, (fits_iff_getLsbD ..).1 (hv f hf hr) i (by omega)]
    · simp [hi]

/-- The packed value of a register whose stored values have their widths. -/
theorem slice_pack_fields {s t : State} (hb : t.bank = s.bank) (ht : t.Inv) {d : RegDecl} (hd : d ∈ s.bank.schema.regs)
    {f : FieldDecl} (hf : f ∈ s.fields d) :
    slice (pack d.offset t.vals (s.fields d)) f.lo f.width = if readableField f then t.field d f else 0 := by
  have hW := schemaWidth_le s.bank.ok
  refine slice_pack (layout_ordered s.bank.ok hd) (fun g hg => ?_) (fun g hg hr => ?_) hf
  · have := layout_bounds s.bank.ok hd hg
    omega
  · have hs : storageKind g.kind = true := (Bool.and_eq_true_iff.1 hr).1
    refine ht.fits d (hb ▸ hd) g (List.mem_filter.2 ⟨?_, hs⟩)
    rw [hb]
    exact hg

/-- The lane of a native access is the whole register. -/
theorem native_lane {s : State} {off : Nat} {d : RegDecl} (hr : Reaches s off s.bank.schema.native d) :
    laneOffset s.bank.schema off = 0 := hr.aligned

/-- A field's bits inside the native lane of a value. -/
theorem extractLane_native {s : State} {off : Nat} {d : RegDecl} (hr : Reaches s off s.bank.schema.native d)
    {f : FieldDecl} (hf : f ∈ s.fields d) (R : Word) :
    (extractLane s.bank.schema off s.bank.schema.native R).toNat / 2 ^ f.lo % 2 ^ f.width =
      (slice R f.lo f.width).toNat := by
  have hb := (layout_bounds s.bank.ok hr.declared hf).2
  rw [← slice_toNat, extractLane, native_lane hr]
  congr 1
  apply BitVec.eq_of_getLsbD_eq
  intro i _
  simp only [slice_getLsbD, schemaWidth] at hb ⊢
  by_cases hi : i < f.width
  · simp [hi, show f.lo + i < 8 * s.bank.schema.native by omega]
  · simp [hi]

/-- Settles O30: the field's bits of the lane are its bits of the packed value, which are its stored value. -/
theorem nativeReadShowsEachField : Obligations.NativeReadShowsEachField := by
  intro s t off wb d hi hr hw h
  have ht : t.Inv := exec_inv hi h
  obtain ⟨vals, ev, -, -, rfl⟩ := execRd_turns hr h
  rw [hw] at hr
  refine ⟨_, rfl, ?_, fun f hf => ?_⟩
  · rw [hw]; exact slice_lt ..
  · have hread : (storageKind f.kind = true ∧ f.mode ≠ .write) ↔ readableField f = true := by
      simp [readableField]
    rw [hw, extractLane_native hr hf, packedValue, if_congr hread rfl rfl]
    cases s.bank.schema.packOrder with
    | callbacksFirst =>
      exact (congrArg BitVec.toNat (slice_pack_fields (t := s.answer _ vals ev) rfl ht hr.declared hf)).trans
        (apply_ite BitVec.toNat ..)
    | packFirst =>
      exact (congrArg BitVec.toNat (slice_pack_fields rfl hi hr.declared hf)).trans (apply_ite BitVec.toNat ..)

/-- RegRead answers when no read callback changes a constant. -/
theorem regRead_isOk {sch : Schema} (h : schemaWellFormed sch = true) {d : RegDecl} (hd : d ∈ sch.regs)
    (hp : ∀ f ∈ layout (schemaWidth sch) d, ∀ p, f.rcb = some p →
      sparesConstants (storageFields (schemaWidth sch) d) p) (vals : Store) : ∃ r, regRead sch d vals = .ok r := by
  obtain ⟨c, hc⟩ := readFields_isOk (reg := d.offset) (storage_lo_lt h hd) hp ⟨vals, []⟩
  exact ⟨(_, c), by rw [regRead, hc]⟩

/-- READ of a register completes when no read callback changes a constant. -/
theorem execRd_isOk {s : State} {off : Word} {wb : BitVec 4} {d : RegDecl} (hr : Reaches s off.toNat wb.toNat d)
    (hp : ∀ f ∈ s.fields d, ∀ p, f.rcb = some p → sparesConstants (s.storage d) p) :
    ∃ t, exec (.rd off wb) s = .next t := by
  obtain ⟨r, hread⟩ := regRead_isOk s.bank.ok hr.declared hp s.vals
  rw [exec_rd, execRd_reaches hr, hread]
  exact ⟨_, rfl⟩

/-- A component assigned 0 is 0. -/
theorem viewValue_assign_zero (lo : Nat) (u : View) : viewValue lo (viewAssign lo 0 u) = 0 := by
  induction u with
  | nil => rfl
  | cons c cs ih =>
    rw [viewAssign_cons, viewValue, ih]
    by_cases hc : c.lo = lo <;> simp [hc, trunc]

/-- A field whose read callback clears it is 0 after the loop, when no other field has a read callback. -/
theorem turns_clear_on_read {reg : Nat} {storage : List FieldDecl} (hd : storage.Pairwise (fun a b => a.lo < b.lo))
    {f : FieldDecl} (hf : f ∈ storage) (hcb : f.rcb = some (.assign f.lo (.const 0))) {fs : List FieldDecl}
    (hother : ∀ g ∈ fs, g ≠ f → g.rcb = none) {a b : Store} {ev : List Event}
    (h : Turns (ReadTurn reg storage) fs a b ev) (h0 : f ∈ fs ∨ a.val reg f.lo = 0) : b.val reg f.lo = 0 := by
  induction h with
  | nil a => exact h0.resolve_left (List.not_mem_nil)
  | @cons g gs a b c ev ev' hg _ ih =>
    refine ih (fun e he => hother e (List.mem_cons_of_mem g he)) ?_
    by_cases hgf : g = f
    · subst hgf
      obtain ⟨hrun, -⟩ := hg.callback _ hcb
      exact .inr ((runCallback_values hd hrun hf).trans (viewValue_assign_zero ..))
    · obtain ⟨rfl, -⟩ := hg.quiet (hother g List.mem_cons_self hgf)
      exact h0.imp_left fun hm => (List.mem_cons.1 hm).resolve_left (Ne.symm hgf)

/-- Settles O34: the callback spares the constants, so the READ completes, and it clears the field; what the READ shows
is the field as `nativeReadShowsEachField` says. -/
theorem clearOnReadFollowsThePackOrder : Obligations.ClearOnReadFollowsThePackOrder := by
  intro s off wb d f hi hr hw hf hmw hmc hcb hother
  obtain ⟨hl, hk⟩ := List.mem_filter.1 hf
  have hspares : ∀ g ∈ s.fields d, ∀ p, g.rcb = some p → sparesConstants (s.storage d) p := by
    intro g hg p hp e he hme
    have hgf : g = f := by
      by_contra hne
      rw [hother g hg hne] at hp
      cases hp
    subst hgf
    cases hcb.symm.trans hp
    refine callbackKeeps_of_not_assigned fun hm => ?_
    have hlo : e.lo = g.lo := List.mem_singleton.1 hm
    rw [layout_lo_inj s.bank.ok hr.declared (List.mem_filter.1 he).1 hl hlo] at hme
    exact hmc hme
  obtain ⟨t, ht⟩ := execRd_isOk hr hspares
  obtain ⟨r, hrep, -, hshow⟩ := nativeReadShowsEachField s t off wb d hi hr hw ht
  have hzero : t.field d f = 0 := by
    obtain ⟨vals, ev, hturns, -, rfl⟩ := execRd_turns hr ht
    exact turns_clear_on_read (storage_lo_lt s.bank.ok hr.declared) hf hcb hother hturns (.inl hl)
  have hbits := hshow f hl
  rw [if_pos ⟨hk, hmw⟩] at hbits
  refine ⟨t, r, ht, hrep, hzero, fun ho => ?_, fun ho => ?_⟩
  · rw [hbits, ho, hzero]; rfl
  · rw [hbits, ho]

/-! ### A write's lane in plain arithmetic (40_field_ops.md R122, 42_bus_ops.md R192) -/

theorem slice_eq_ofNat (v : Word) (lo width : Nat) :
    slice v lo width = BitVec.ofNat 64 (v.toNat / 2 ^ lo % 2 ^ width) := by
  rw [← slice_toNat, BitVec.ofNat_toNat, BitVec.setWidth_eq]

/-- A value of `n` bits that is shifted to bit `m` inside a word loses no bit. -/
theorem shiftLeft_toNat_of_fits {x : Word} {m n : Nat} (hx : x.toNat < 2 ^ n) (hmn : m + n ≤ 64) :
    (x <<< m).toNat = x.toNat * 2 ^ m := by
  rw [BitVec.toNat_shiftLeft, Nat.shiftLeft_eq, Nat.mod_eq_of_lt]
  calc x.toNat * 2 ^ m < 2 ^ n * 2 ^ m := Nat.mul_lt_mul_of_pos_right hx (Nat.two_pow_pos m)
    _ = 2 ^ (m + n) := by rw [Nat.pow_add, Nat.mul_comm]
    _ ≤ 2 ^ 64 := Nat.pow_le_pow_right (by decide) hmn

theorem laneMask_getLsbD (sch : Schema) (off w i : Nat) :
    (laneMask sch off w).getLsbD i = (decide (i < 64) && decide (8 * laneOffset sch off ≤ i) &&
      decide (i < 8 * (laneOffset sch off + w))) := by
  rw [laneMask, BitVec.getLsbD_shiftLeft, mask_getLsbD, Bool.eq_iff_iff]
  simp only [Bool.and_eq_true, Bool.not_eq_true', decide_eq_true_eq, decide_eq_false_iff_not]
  omega

/-- The placed data has no bit outside the lane. -/
theorem placed_and_lane (sch : Schema) (off w : Nat) (data : Word) (f : FieldDecl) :
    slice (placeWriteData sch off w data) f.lo f.width &&& slice (laneMask sch off w) f.lo f.width =
      slice (placeWriteData sch off w data) f.lo f.width := by
  apply BitVec.eq_of_getLsbD_eq
  intro i _
  rw [BitVec.getLsbD_and, slice_getLsbD, slice_getLsbD, placeWriteData, laneMask, BitVec.getLsbD_shiftLeft,
    BitVec.getLsbD_shiftLeft, trunc_getLsbD, mask_getLsbD, Bool.eq_iff_iff]
  simp only [Bool.and_eq_true, Bool.not_eq_true', decide_eq_true_eq, decide_eq_false_iff_not]
  refine ⟨And.left, fun h => ⟨h, ?_⟩⟩
  omega

section
variable {s : State} {off w : Nat} {d : RegDecl} (hr : Reaches s off w d)
include hr

theorem lane_bits_le : 8 * laneOffset s.bank.schema off + 8 * w ≤ 64 := by
  have hlane := reaches_lane hr
  have hW := schemaWidth_le s.bank.ok
  rw [schemaWidth] at hW
  rw [laneOffset]
  omega

/-- The machine's incoming bits of a field are those of plain arithmetic. -/
theorem slice_placeWriteData (data : Word) (f : FieldDecl) :
    slice (placeWriteData s.bank.schema off w data) f.lo f.width =
      incomingBits (off % s.bank.schema.native) w data f := by
  rw [slice_eq_ofNat, placeWriteData, shiftLeft_toNat_of_fits (trunc_lt _ data) (lane_bits_le hr), trunc_toNat]
  rfl

/-- The machine's lane bits of a field are those of plain arithmetic. -/
theorem slice_laneMask (f : FieldDecl) :
    slice (laneMask s.bank.schema off w) f.lo f.width = touchedBits (off % s.bank.schema.native) w f := by
  have hle := lane_bits_le hr
  have hm := mask_toNat (8 * w) (by omega)
  have hfit : (mask (8 * w)).toNat < 2 ^ (8 * w) := by
    have := Nat.two_pow_pos (8 * w)
    omega
  rw [slice_eq_ofNat, laneMask, shiftLeft_toNat_of_fits hfit hle, hm]
  rfl

/-- A field is processed exactly when it has a bit in the lane (41_register_ops.md R163). -/
theorem processed_eq_meetsLane {f : FieldDecl} (hf : f ∈ s.fields d) :
    processed (laneMask s.bank.schema off w) f = meetsLane (off % s.bank.schema.native) w f := by
  have hle := lane_bits_le hr
  have hw : 0 < w := by rcases (permitted_cases s.bank.ok hr.legal).1 with e | e | e | e <;> omega
  have hwidth := (layout_bounds s.bank.ok hr.declared hf).1
  have hbit : slice (laneMask s.bank.schema off w) f.lo f.width ≠ 0 ↔
      ∃ i, (slice (laneMask s.bank.schema off w) f.lo f.width).getLsbD i = true := by
    refine ⟨fun hne => ?_, fun ⟨i, hi⟩ e => by simp [e] at hi⟩
    by_contra hnone
    exact hne (BitVec.eq_of_getLsbD_eq fun i _ => by simpa using fun h => hnone ⟨i, h⟩)
  rw [laneOffset] at hle
  rw [processed, meetsLane, Bool.eq_iff_iff, decide_eq_true_eq, hbit]
  simp only [slice_getLsbD, laneMask_getLsbD, Bool.and_eq_true, decide_eq_true_eq]
  rw [laneOffset]
  constructor
  · rintro ⟨i, h⟩
    omega
  · intro h
    exact ⟨max f.lo (8 * (off % s.bank.schema.native)) - f.lo, by omega⟩

/-- The machine's candidate of a field is that of plain arithmetic. -/
theorem mergedCandidate_eq (data : Word) (f : FieldDecl) (o : Word) :
    mergedCandidate o (slice (placeWriteData s.bank.schema off w data) f.lo f.width)
        (slice (laneMask s.bank.schema off w) f.lo f.width) =
      candidateBits (off % s.bank.schema.native) w data f o := by
  rw [mergedCandidate, placed_and_lane, slice_placeWriteData hr, slice_laneMask hr]
  rfl

end

/-- What a write's effect on a field is in plain arithmetic, for a field with a bit in the lane. -/
theorem fieldEffect_in_lane {s : State} {off w : Nat} {d : RegDecl} (hr : Reaches s off w d) (reg : Nat)
    (vals : Store) (data : Word) {f : FieldDecl} (hm : meetsLane (off % s.bank.schema.native) w f = true) :
    let k := off % s.bank.schema.native
    let e := fieldEffect reg vals f (placeWriteData s.bank.schema off w data) (laneMask s.bank.schema off w)
    effectEvents reg f e = writeDiagnostics k w data reg f (vals.val reg f.lo) ∧
      e.stored = if writableField f then some (writtenValue k w data f (vals.val reg f.lo)) else none := by
  simp only [fieldEffect, writeEffect, mergedCandidate_eq hr, placed_and_lane]
  simp only [slice_placeWriteData hr, writeDiagnostics, writtenValue, hm, writableField]
  cases hk : f.kind with
  | reserved => simp [effectEvents, storageKind]
  | tagged => simp [effectEvents, storageKind]
  | flag | unsignedRange => cases f.mode <;> simp [effectEvents, storageKind]
  | enum =>
    cases f.mode with
    | read | readOnlyConstant | writeOneToClear => simp [effectEvents, storageKind]
    | write | readWrite =>
      by_cases hv : (candidateBits (off % s.bank.schema.native) w data f (vals.val reg f.lo)).toNat ∈ f.valid
      · simp [effectEvents, storageKind, hv]
      · cases f.policy <;> simp [effectEvents, storageKind, hv, policyValue]

/-! ### The turns of a WRITE (40_field_ops.md R123, R124, R135) -/

/-- What the write loop does at one field, from the stored values `a` (40_field_ops.md R122..R136): a writable field in
the lane commits its value, which its callback then gets with the view; any other field keeps its value. -/
structure WriteTurn (k w : Nat) (data : Word) (reg : Nat) (storage : List FieldDecl) (f : FieldDecl) (a b : Store)
    (ev : List Event) : Prop where
  keep : ¬ (meetsLane k w f = true ∧ writableField f = true) →
    b = a ∧ ev = writeDiagnostics k w data reg f (a.val reg f.lo)
  commit : meetsLane k w f = true ∧ writableField f = true → f.wcb = none →
    b = a.put reg f.lo (writtenValue k w data f (a.val reg f.lo)) ∧
    ev = writeDiagnostics k w data reg f (a.val reg f.lo)
  callback : meetsLane k w f = true ∧ writableField f = true → ∀ p, f.wcb = some p →
    runCallback reg storage p (a.val reg f.lo) (writtenValue k w data f (a.val reg f.lo))
      (a.put reg f.lo (writtenValue k w data f (a.val reg f.lo))) = .ok b ∧
    ev = writeDiagnostics k w data reg f (a.val reg f.lo) ++
      [.cbWrite reg f.lo (a.val reg f.lo) (writtenValue k w data f (a.val reg f.lo))]

/-- A field outside the lane is passed over. -/
theorem writeTurn_outside {k w : Nat} {f : FieldDecl} (hm : meetsLane k w f = false) (data : Word) (reg : Nat)
    (storage : List FieldDecl) (a : Store) : WriteTurn k w data reg storage f a a [] where
  keep _ := ⟨rfl, by rw [writeDiagnostics, if_pos hm]⟩
  commit h := by simp [hm] at h
  callback h := by simp [hm] at h

/-- The write loop looks at the processed fields only. -/
theorem writeFields_filter (reg : Nat) (storage : List FieldDecl) (v M : Word) (fs : List FieldDecl) (c : Ctx) :
    writeFields reg storage v M (fs.filter (processed M)) c = writeFields reg storage v M fs c := by
  induction fs generalizing c with
  | nil => rfl
  | cons f fs ih =>
    by_cases hp : processed M f = true
    · rw [List.filter_cons_of_pos hp, writeFields, writeFields, if_pos hp, if_pos hp]
      split
      · exact ih _
      · rfl
    · rw [List.filter_cons_of_neg hp, writeFields, if_neg hp, ih]

section
variable {s : State} {off w : Nat} {d : RegDecl} (hr : Reaches s off w d) {data : Word}
include hr

/-- FieldWrite of a field in the lane is its turn. -/
theorem writeTurn_of_fieldWrite {reg : Nat} {storage : List FieldDecl} {f : FieldDecl}
    (hm : meetsLane (off % s.bank.schema.native) w f = true) {c c' : Ctx}
    (h : fieldWrite reg storage f (placeWriteData s.bank.schema off w data) (laneMask s.bank.schema off w) c = .ok c') :
    ∃ ev, c'.events = c.events ++ ev ∧
      WriteTurn (off % s.bank.schema.native) w data reg storage f c.vals c'.vals ev := by
  obtain ⟨hdiag, hstored⟩ := fieldEffect_in_lane hr reg c.vals data hm
  rcases fieldWrite_ok h with ⟨hs, rfl⟩ | ⟨n, hs, hfire⟩ <;> rw [hs] at hstored
  · have hw : writableField f ≠ true := fun hw => by simp [hw] at hstored
    exact ⟨_, rfl, fun _ => ⟨rfl, hdiag⟩, fun hc => absurd hc.2 hw, fun hc => absurd hc.2 hw⟩
  · have hw : writableField f = true := by
      by_contra hw
      simp [hw] at hstored
    rw [if_pos hw, Option.some.injEq] at hstored
    subst hstored
    rw [hdiag] at hfire
    rcases fireWcb_ok hfire with ⟨hn, rfl⟩ | ⟨p, vals, hp, hrun, rfl⟩
    · exact ⟨_, rfl, fun hc => absurd ⟨hm, hw⟩ hc, fun _ _ => ⟨rfl, rfl⟩, by simp [hn]⟩
    · refine ⟨_, List.append_assoc .., fun hc => absurd ⟨hm, hw⟩ hc, by simp [hp], fun _ q hq => ?_⟩
      cases hp.symm.trans hq
      exact ⟨hrun, rfl⟩

theorem turns_of_writeFields {storage fs : List FieldDecl} (hfs : ∀ f ∈ fs, f ∈ s.fields d) {c c' : Ctx}
    (h : writeFields d.offset storage (placeWriteData s.bank.schema off w data) (laneMask s.bank.schema off w) fs c =
      .ok c') :
    ∃ ev, c'.events = c.events ++ ev ∧
      Turns (WriteTurn (off % s.bank.schema.native) w data d.offset storage) fs c.vals c'.vals ev := by
  induction fs generalizing c with
  | nil => cases h; exact ⟨[], by simp, .nil _⟩
  | cons f fs ih =>
    have ih' := fun {c} => ih (c := c) fun g hg => hfs g (List.mem_cons_of_mem f hg)
    have hproc := processed_eq_meetsLane hr (hfs f List.mem_cons_self)
    rcases writeFields_cons_ok h with ⟨hp, hrest⟩ | ⟨c1, hp, hf, hrest⟩ <;> rw [hproc] at hp
    · obtain ⟨ev, hev, hturns⟩ := ih' hrest
      exact ⟨[] ++ ev, hev, .cons (writeTurn_outside hp data d.offset storage c.vals) hturns⟩
    · obtain ⟨ev1, hev1, hturn⟩ := writeTurn_of_fieldWrite hr hp hf
      obtain ⟨ev, hev, hturns⟩ := ih' hrest
      exact ⟨ev1 ++ ev, by rw [hev, hev1, List.append_assoc], .cons hturn hturns⟩

/-- RegWrite answers when no callback of a field in the lane changes a constant. -/
theorem regWrite_isOk (data : Word) (hp : ∀ f ∈ s.fields d, meetsLane (off % s.bank.schema.native) w f = true →
      ∀ p, f.wcb = some p → sparesConstants (s.storage d) p) :
    ∃ c, regWrite s.bank.schema d (placeWriteData s.bank.schema off w data) (laneMask s.bank.schema off w) s.vals =
      .ok c := by
  rw [regWrite, ← writeFields_filter]
  refine writeFields_isOk (storage_lo_lt s.bank.ok hr.declared) (fun f hf => ?_) ..
  obtain ⟨hl, hproc⟩ := List.mem_filter.1 hf
  exact hp f hl ((processed_eq_meetsLane hr hl).symm.trans hproc)

theorem regWrite_turns {c : Ctx}
    (hc : regWrite s.bank.schema d (placeWriteData s.bank.schema off w data) (laneMask s.bank.schema off w) s.vals =
      .ok c) :
    Turns (WriteTurn (off % s.bank.schema.native) w data d.offset (s.storage d)) (s.fields d) s.vals c.vals
      c.events := by
  obtain ⟨ev, hev, hturns⟩ := turns_of_writeFields hr (fun _ hf => hf) hc
  rwa [hev]

end

/-- WRITE to a register that completes: the register write it stands for. -/
theorem execWr_completed {s t : State} {off : Word} {wb : BitVec 4} {data : Word} {d : RegDecl}
    (hr : Reaches s off.toNat wb.toNat d) (h : exec (.wr off wb data) s = .next t) :
    ∃ c, regWrite s.bank.schema d (placeWriteData s.bank.schema off.toNat wb.toNat data)
        (laneMask s.bank.schema off.toNat wb.toNat) s.vals = .ok c ∧ t = s.answer 0 c.vals c.events := by
  rw [exec_wr, execWr_reaches hr] at h
  cases hc : regWrite s.bank.schema d (placeWriteData s.bank.schema off.toNat wb.toNat data)
      (laneMask s.bank.schema off.toNat wb.toNat) s.vals with
  | error e => rw [hc] at h; cases h
  | ok c => rw [hc] at h; cases h; exact ⟨c, rfl, rfl⟩

/-- WRITE completes when no callback of a field in the lane changes a constant. -/
theorem execWr_isOk {s : State} {off : Word} {wb : BitVec 4} {d : RegDecl} (hr : Reaches s off.toNat wb.toNat d)
    (data : Word) (hp : ∀ f ∈ s.fields d, meetsLane (off.toNat % s.bank.schema.native) wb.toNat f = true →
      ∀ p, f.wcb = some p → sparesConstants (s.storage d) p) : ∃ t, exec (.wr off wb data) s = .next t := by
  obtain ⟨c, hc⟩ := regWrite_isOk hr data hp
  rw [exec_wr, execWr_reaches hr, hc]
  exact ⟨_, rfl⟩

/-! ### The events of a WRITE (40_field_ops.md R135, R140) -/

theorem writeDiagnostics_no_callback (k w : Nat) (data : Word) (reg : Nat) (f : FieldDecl) (o : Word) :
    (writeDiagnostics k w data reg f o).filter isCallbackEvent = [] := by
  rw [writeDiagnostics]
  repeat' split
  all_goals rfl

/-- The callback events of a write turn, without their values: one where a writable field in the lane has a callback. -/
theorem writeTurn_sites {k w : Nat} {data : Word} {reg : Nat} {storage : List FieldDecl} {f : FieldDecl} {a b : Store}
    {ev : List Event} (h : WriteTurn k w data reg storage f a b ev) :
    (ev.filter isCallbackEvent).map eventSite =
      if meetsLane k w f && f.wcb.isSome && writableField f then [.cbWrite reg f.lo 0 0] else [] := by
  by_cases hc : meetsLane k w f = true ∧ writableField f = true
  · cases hw : f.wcb with
    | none => simp [(h.commit hc hw).2, writeDiagnostics_no_callback]
    | some p =>
      rw [(h.callback hc p hw).2, List.filter_append, writeDiagnostics_no_callback, hc.1, hc.2]
      rfl
  · rw [(h.keep hc).2, writeDiagnostics_no_callback]
    simp only [Bool.and_eq_true, List.map_nil]
    rw [if_neg]
    tauto

theorem flatMap_ite_singleton {α β : Type} (p : α → Bool) (g : α → β) (l : List α) :
    (l.flatMap fun a => if p a then [g a] else []) = (l.filter p).map g := by
  induction l with
  | nil => rfl
  | cons a l ih =>
    rw [List.flatMap_cons, ih, List.filter_cons]
    split <;> rfl

/-- Settles O39: each turn's callback events depend on its field only. -/
theorem writeRunsTheCallbacksOfProcessedFields : Obligations.WriteRunsTheCallbacksOfProcessedFields := by
  intro s t off wb data d hr h
  obtain ⟨c, hc, rfl⟩ := execWr_completed hr h
  refine ⟨_, rfl, ?_⟩
  rw [turns_flatMap_events (F := fun ev => (ev.filter isCallbackEvent).map eventSite) rfl (by simp)
    (regWrite_turns hr hc) fun f _ _ _ _ hf => writeTurn_sites hf, flatMap_ite_singleton]
  simp only [writableField, Bool.and_assoc]

/-- Settles O41: the stored values before each field are what the earlier fields and their callbacks left. -/
theorem writeCallbackSeesCommittedFields : Obligations.WriteCallbackSeesCommittedFields := by
  intro s off wb data d hr
  refine ⟨execWr_isOk hr data, fun t h => ?_⟩
  obtain ⟨c, hc, rfl⟩ := execWr_completed hr h
  have hlo : (s.storage d).Pairwise (fun a b => a.lo < b.lo) := storage_lo_lt s.bank.ok hr.declared
  obtain ⟨st, evs, h0, hlast, hev, hturn⟩ := turns_sequence (regWrite_turns hr hc)
  refine ⟨fun i lo => (st i).val d.offset lo, evs, fun g _ => congrArg (Store.val d.offset g.lo) h0,
    fun i f hf => ⟨fun hn => ?_, fun hw hn => ?_, fun hw p hp => ?_⟩,
    fun g _ => congrArg (Store.val d.offset g.lo) hlast.symm,
    (regWrite_changesOnly s.bank.ok hr.declared hc).elsewhere, rfl, rfl, by rw [← hev]; rfl⟩
  · obtain ⟨hst, hev⟩ := (hturn i f hf).keep hn
    exact ⟨hev, fun g _ => congrArg (Store.val d.offset g.lo) hst⟩
  · obtain ⟨hst, hev⟩ := (hturn i f hf).commit hw hn
    refine ⟨hev, fun g _ => ?_⟩
    simp only [hst, val_put, Prod.mk.injEq, true_and]
  · obtain ⟨hrun, hev⟩ := (hturn i f hf).callback hw p hp
    refine ⟨hev, fun g hg => ?_⟩
    refine (runCallback_values hlo hrun hg).trans ?_
    simp only [viewOf_eq_viewWith, val_put, Prod.mk.injEq, true_and]

/-! ### WRITE without write callbacks, in plain arithmetic (40_field_ops.md R127..R133) -/

/-- A field that a write does not commit keeps its value. -/
theorem writtenValue_of_not_writable {f : FieldDecl} (hk : storageKind f.kind = true) (hw : writableField f = false)
    (k w : Nat) (data o : Word) : writtenValue k w data f o = o := by
  rw [writtenValue]
  split
  · rfl
  · cases hm : f.mode <;> simp [writableField, hk, hm] at hw ⊢

/-- RegWrite without write callbacks leaves the written value in each storage field. -/
theorem regWrite_field {s : State} {off w : Nat} {d : RegDecl} (hr : Reaches s off w d)
    (hw : ∀ g ∈ s.fields d, g.wcb = none) {data : Word} {c : Ctx}
    (hc : regWrite s.bank.schema d (placeWriteData s.bank.schema off w data) (laneMask s.bank.schema off w) s.vals =
      .ok c) {f : FieldDecl} (hf : f ∈ s.storage d) :
    c.vals.val d.offset f.lo = writtenValue (off % s.bank.schema.native) w data f (s.field d f) := by
  obtain ⟨hl, hk⟩ := List.mem_filter.1 hf
  rw [regWrite_val s.bank.ok hr.declared hw hc hl, processed_eq_meetsLane hr hl]
  cases hm : meetsLane (off % s.bank.schema.native) w f with
  | false => simp [writtenValue, hm, field_def]
  | true =>
    rw [if_pos rfl, FieldEffect.valueFrom, (fieldEffect_in_lane hr d.offset s.vals data hm).2]
    cases hwf : writableField f with
    | true => rfl
    | false => exact (writtenValue_of_not_writable hk hwf ..).symm

/-- Settles O37: the clauses are the branches of `writtenValue`. -/
theorem writeWithoutCallbacksSetsEachField : Obligations.WriteWithoutCallbacksSetsEachField := by
  intro s off wb data d hr hw k
  obtain ⟨t, ht⟩ := execWr_isOk hr data fun f hf _ p hp => by simp [hw f hf] at hp
  obtain ⟨c, hc, rfl⟩ := execWr_completed hr ht
  refine ⟨_, c.events, ht, rfl, rfl, rfl, (regWrite_changesOnly s.bank.ok hr.declared hc).elsewhere, fun f hf => ?_⟩
  have hdecl := (mem_storageFields.1 hf).1
  have hval : (s.answer 0 c.vals c.events).field d f = writtenValue k wb.toNat data f (s.field d f) :=
    regWrite_field hr hw hc hf
  rw [hval]
  refine ⟨fun hm => ?_, fun hmode => ?_, fun hm hmode => ?_, fun hm hmode => ⟨fun hv => ?_, fun hk hv =>
    ⟨fun hp => ?_, fun v hp => ?_, fun hp => ?_⟩⟩⟩
  · rw [writtenValue, if_pos hm]
  · rcases hmode with hmode | hmode <;> simp [writtenValue, hmode]
  · simp [writtenValue, hm, hmode]
  · have hnot : ¬ (f.kind = .enum ∧ (candidateBits k wb.toNat data f (s.field d f)).toNat ∉ f.valid) := by tauto
    rcases hmode with hmode | hmode <;> simp [writtenValue, hm, hmode, hnot]
  · rcases hmode with hmode | hmode <;> simp [writtenValue, hm, hmode, hk, hv, hp]
  · have hlt := (clamp_valid_word s.bank.ok hr.declared hdecl hk hp).2
    rcases hmode with hmode | hmode <;> simpa [writtenValue, hm, hmode, hk, hv, hp] using hlt
  · rcases hmode with hmode | hmode <;> simp [writtenValue, hm, hmode, hk, hv, hp]

/-- Without a write callback a turn emits the field's diagnostic and leaves the other fields as they were. -/
theorem writeTurn_of_no_wcb {k w : Nat} {data : Word} {reg : Nat} {storage : List FieldDecl} {f : FieldDecl}
    {a b : Store} {ev : List Event} (h : WriteTurn k w data reg storage f a b ev) (hf : f.wcb = none) :
    ev = writeDiagnostics k w data reg f (a.val reg f.lo) ∧ ∀ lo, lo ≠ f.lo → b.val reg lo = a.val reg lo := by
  by_cases hc : meetsLane k w f = true ∧ writableField f = true
  · obtain ⟨rfl, hev⟩ := h.commit hc hf
    exact ⟨hev, fun lo hne => val_put_of_ne a _ fun e => hne (congrArg Prod.snd e)⟩
  · obtain ⟨rfl, hev⟩ := h.keep hc
    exact ⟨hev, fun _ _ => rfl⟩

/-- Without write callbacks each field's diagnostic is about the value it had before the loop. -/
theorem turns_write_events {k w : Nat} {data : Word} {reg : Nat} {storage fs : List FieldDecl}
    (hlo : fs.Pairwise (fun a b => a.lo < b.lo)) (hw : ∀ f ∈ fs, f.wcb = none) {a c : Store} {ev : List Event}
    (h : Turns (WriteTurn k w data reg storage) fs a c ev) :
    ev = fs.flatMap fun f => writeDiagnostics k w data reg f (a.val reg f.lo) := by
  induction h with
  | nil a => rfl
  | @cons f fs a b c ev ev' hf _ ih =>
    rw [List.pairwise_cons] at hlo
    obtain ⟨rfl, hkeep⟩ := writeTurn_of_no_wcb hf (hw f List.mem_cons_self)
    rw [ih hlo.2 fun g hg => hw g (List.mem_cons_of_mem f hg), List.flatMap_cons]
    congr 1
    exact List.flatMap_congr fun g hg => by rw [hkeep g.lo (Nat.ne_of_gt (hlo.1 g hg))]

/-- Settles O38. -/
theorem writeDiagnosticsAreInFieldOrder : Obligations.WriteDiagnosticsAreInFieldOrder := by
  intro s off wb data d hr hw
  obtain ⟨t, ht⟩ := execWr_isOk hr data fun f hf _ p hp => by simp [hw f hf] at hp
  obtain ⟨c, hc, rfl⟩ := execWr_completed hr ht
  refine ⟨_, ht, ?_⟩
  rw [answer_replies, turns_write_events (layout_lo_lt s.bank.ok hr.declared) hw (regWrite_turns hr hc)]
  rfl

/-! ### Views by their components (10_state.md R41) -/

/-- A shape gives each place once. -/
abbrev PlacesDiffer (shape : List (Nat × Nat)) : Prop := shape.Pairwise fun a b => a.1 ≠ b.1

theorem viewValue_of_mem {u : View} (hd : PlacesDiffer (viewShape u)) {c : ViewCell} (hc : c ∈ u) :
    viewValue c.lo u = c.value := by
  induction u with
  | nil => cases hc
  | cons e u ih =>
    obtain ⟨hne, hd⟩ := List.pairwise_cons.1 hd
    rw [viewValue]
    rcases List.mem_cons.1 hc with rfl | hc
    · rw [if_pos rfl]
    · rw [if_neg (hne (c.lo, c.width) (List.mem_map.2 ⟨c, hc, rfl⟩)), ih hd hc]

/-- Two views of one shape are equal when they agree at every place. -/
theorem view_ext {t u : View} (hs : viewShape t = viewShape u) (hd : PlacesDiffer (viewShape t))
    (hv : ∀ c ∈ t, viewValue c.lo u = c.value) : t = u := by
  induction t generalizing u with
  | nil => exact (List.map_eq_nil_iff.1 hs.symm).symm
  | cons c t ih =>
    cases u with
    | nil => cases hs
    | cons e u =>
      obtain ⟨hce, hs⟩ := List.cons.inj hs
      obtain ⟨hne, hd⟩ := List.pairwise_cons.1 hd
      obtain ⟨hlo, hwidth⟩ := Prod.mk.inj hce
      have hhead : c = e := by
        have hvalue := hv c List.mem_cons_self
        rw [viewValue, if_pos hlo.symm] at hvalue
        obtain ⟨clo, cwidth, cvalue⟩ := c
        cases hlo
        cases hwidth
        cases hvalue
        rfl
      have htail : t = u := ih hs hd fun c' hc' => by
        have hvalue := hv c' (List.mem_cons_of_mem c hc')
        rwa [viewValue, if_neg] at hvalue
        rw [← hlo]
        exact hne (c'.lo, c'.width) (List.mem_map.2 ⟨c', hc', rfl⟩)
      rw [hhead, htail]

/-- A component assigned a value of its width takes it. -/
theorem viewValue_assign_self {u : View} (hd : PlacesDiffer (viewShape u)) {lo width : Nat}
    (hm : (lo, width) ∈ viewShape u) {v : Word} (hv : v.toNat < 2 ^ width) : viewValue lo (viewAssign lo v u) = v := by
  induction u with
  | nil => cases hm
  | cons c u ih =>
    obtain ⟨hne, hd⟩ := List.pairwise_cons.1 hd
    rw [viewAssign_cons, viewValue]
    rcases List.mem_cons.1 hm with he | hm
    · obtain ⟨rfl, rfl⟩ := Prod.mk.inj he
      simp [trunc_eq_self hv]
    · have hlo : c.lo ≠ lo := hne _ hm
      simp [hlo, ih hd hm]

/-! ### Every callback is a program (40_field_ops.md R138, R145, log entry 3) -/

/-- The program that leaves a given view behind. -/
def assignView : View → Program
  | [] => .skip
  | c :: cs => .seq (.assign c.lo (.const c.value)) (assignView cs)

theorem programAssigns_assignView (t : View) : programAssigns (assignView t) = t.map ViewCell.lo := by
  induction t with
  | nil => rfl
  | cons c t ih => rw [assignView, programAssigns, ih]; rfl

/-- Assigning components of different places leaves each at its value. -/
theorem viewValue_assignView {shape : List (Nat × Nat)} (hd : PlacesDiffer shape) (old new : Word) {t u : View}
    (ht : PlacesDiffer (viewShape t)) (hin : ∀ c ∈ t, (c.lo, c.width) ∈ shape ∧ c.value.toNat < 2 ^ c.width)
    (hu : viewFits shape u) {c : ViewCell} (hc : c ∈ t) :
    viewValue c.lo (runProgram old new (assignView t) u) = c.value := by
  induction t generalizing u with
  | nil => cases hc
  | cons e t ih =>
    obtain ⟨hne, ht⟩ := List.pairwise_cons.1 ht
    rw [assignView, runProgram, runProgram, evalExpr]
    rcases List.mem_cons.1 hc with rfl | hc
    · obtain ⟨hplace, hvalue⟩ := hin c List.mem_cons_self
      have hkeeps : callbackKeeps (assignView t) c.lo := callbackKeeps_of_not_assigned fun hm => by
        rw [programAssigns_assignView] at hm
        obtain ⟨e, he, hlo⟩ := List.mem_map.1 hm
        exact hne (e.lo, e.width) (List.mem_map.2 ⟨e, he, rfl⟩) hlo.symm
      rw [hkeeps, viewValue_assign_self (hu.1 ▸ hd) (hu.1 ▸ hplace) hvalue]
    · exact ih ht (fun e he => hin e (List.mem_cons_of_mem _ he)) (viewFits_assign hu ..) hc

theorem runProgram_assignView {shape : List (Nat × Nat)} (hd : PlacesDiffer shape) (old new : Word) {t u : View}
    (ht : viewFits shape t) (hu : viewFits shape u) : runProgram old new (assignView t) u = t := by
  obtain ⟨hts, htv⟩ := ht
  have hresult := viewFits_runProgram old new (assignView t) hu
  refine (view_ext (hts.trans hresult.1.symm) (hts ▸ hd) fun c hc => ?_).symm
  exact viewValue_assignView hd old new (hts ▸ hd)
    (fun c hc => ⟨hts ▸ List.mem_map.2 ⟨c, hc, rfl⟩, htv c hc⟩) hu hc

/-- The program that does `p` where an expression has a value and `q` elsewhere. -/
def whenEq (e : Expr) (v : Word) (p q : Program) : Program := .ite (.bin .eq e (.const v)) p q

theorem runProgram_whenEq (old new : Word) (e : Expr) (v : Word) (p q : Program) (u : View) :
    runProgram old new (whenEq e v p q) u =
      if evalExpr old new u e = v then runProgram old new p u else runProgram old new q u := by
  rw [whenEq, runProgram, evalExpr, evalExpr, evalBinOp, wordOfBool]
  by_cases h : evalExpr old new u e = v <;> simp [h]

/-- The program that does `p` on a given view and `q` on the others. -/
def whenView (p q : Program) : View → Program
  | [] => p
  | c :: cs => whenEq (.field c.lo) c.value (whenView p q cs) q

theorem runProgram_whenView_components (old new : Word) (p q : Program) (t u : View) :
    runProgram old new (whenView p q t) u =
      if ∀ c ∈ t, viewValue c.lo u = c.value then runProgram old new p u else runProgram old new q u := by
  induction t with
  | nil => simp [whenView]
  | cons c t ih =>
    rw [whenView, runProgram_whenEq, evalExpr, ih]
    by_cases h : viewValue c.lo u = c.value <;> simp [h]

theorem runProgram_whenView {shape : List (Nat × Nat)} (hd : PlacesDiffer shape) (old new : Word) (p q : Program)
    {t u : View} (ht : viewFits shape t) (hu : viewFits shape u) :
    runProgram old new (whenView p q t) u =
      if t = u then runProgram old new p u else runProgram old new q u := by
  rw [runProgram_whenView_components]
  refine if_congr ⟨view_ext (ht.1.trans hu.1.symm) (ht.1 ▸ hd), ?_⟩ rfl rfl
  rintro rfl c hc
  exact viewValue_of_mem (ht.1 ▸ hd) hc

/-- The program that answers as `F` does on the listed inputs. -/
def tableProgram (F : Word → Word → View → View) : List (Word × Word × View) → Program
  | [] => .skip
  | (old, new, t) :: xs =>
    whenEq .old old (whenEq .new new (whenView (assignView (F old new t)) (tableProgram F xs) t)
      (tableProgram F xs)) (tableProgram F xs)

theorem runProgram_tableProgram {shape : List (Nat × Nat)} (hd : PlacesDiffer shape) {F : Word → Word → View → View}
    (hF : ∀ old new u, viewFits shape u → viewFits shape (F old new u)) {xs : List (Word × Word × View)}
    (hxs : ∀ x ∈ xs, viewFits shape x.2.2) {old new : Word} {u : View} (hu : (old, new, u) ∈ xs) :
    runProgram old new (tableProgram F xs) u = F old new u := by
  induction xs with
  | nil => cases hu
  | cons x xs ih =>
    obtain ⟨o, n, t⟩ := x
    have ht : viewFits shape t := hxs _ List.mem_cons_self
    have hfits : viewFits shape u := hxs _ hu
    rw [tableProgram, runProgram_whenEq, runProgram_whenEq, runProgram_whenView hd _ _ _ _ ht hfits, evalExpr, evalExpr,
      runProgram_assignView hd _ _ (hF o n t ht) hfits]
    by_cases hhit : (old, new, u) = (o, n, t)
    · cases hhit
      simp
    · have htail : (old, new, u) ∈ xs := (List.mem_cons.1 hu).resolve_left hhit
      rw [ih (fun x hx => hxs x (List.mem_cons_of_mem _ hx)) htail]
      grind

theorem finite_word : Finite Word :=
  Finite.of_injective (BitVec.toFin (w := 64)) fun _ _ h => BitVec.eq_of_toFin_eq h

/-- A register has finitely many views. -/
theorem finite_viewFits (shape : List (Nat × Nat)) : {u : View | viewFits shape u}.Finite := by
  have hword := finite_word
  refine ((List.finite_length_eq Word shape.length).image
    (List.zipWith (fun place v => (⟨place.1, place.2, v⟩ : ViewCell)) shape)).subset ?_
  rintro u ⟨rfl, -⟩
  refine ⟨u.map ViewCell.value, by simp [viewShape], ?_⟩
  simp [viewShape, List.zipWith_map]

/-- Settles O50: the program of the table of all inputs, which are finitely many. -/
theorem everyCallbackIsAProgram : Obligations.EveryCallbackIsAProgram := by
  intro shape F hd hF
  have hword := finite_word
  have hinputs : {x : Word × Word × View | viewFits shape x.2.2}.Finite :=
    (Set.finite_univ.prod (Set.finite_univ.prod (finite_viewFits shape))).subset fun x hx => ⟨trivial, trivial, hx⟩
  refine ⟨tableProgram F hinputs.toFinset.toList, fun old new u hu => ?_⟩
  refine runProgram_tableProgram hd hF (fun x hx => ?_) ?_
  · simpa using hx
  · simpa using hu

end Sys2Proof.Machine
end

section
/-! PROOFS. The statements of 41_register_ops.md: what a register read answers, a native write and the read after it,
WriteOneToClear, and the read after RESET. -/

namespace Sys2Proof.Machine

/-! ### The register that an access reaches (42_bus_ops.md R186) -/

/-- Which register an access reaches depends on the bank only. -/
theorem reaches_of_bank {s t : State} (hb : t.bank = s.bank) {off w : Nat} {d : RegDecl} (hr : Reaches s off w d) :
    Reaches t off w d := by
  obtain ⟨b, vals, stream, replies⟩ := t
  subst hb
  exact ⟨hr.legal, hr.aligned, hr.inRange, hr.declared, hr.slot⟩

/-! ### The packed value (40_field_ops.md R120, R121, 41_register_ops.md R160) -/

theorem packedValue_of_callbacksFirst {sch : Schema} (ho : sch.packOrder = .callbacksFirst) (d : RegDecl)
    (a b : Store) : packedValue sch d a b = pack d.offset b (layout (schemaWidth sch) d) := by
  rw [packedValue, ho]

theorem packedValue_of_packFirst {sch : Schema} (ho : sch.packOrder = .packFirst) (d : RegDecl) (a b : Store) :
    packedValue sch d a b = pack d.offset a (layout (schemaWidth sch) d) := by
  rw [packedValue, ho]

/-- READ_PACK_ORDER does not matter to a read that changes nothing. -/
theorem packedValue_self (sch : Schema) (d : RegDecl) (a : Store) :
    packedValue sch d a a = pack d.offset a (layout (schemaWidth sch) d) := by
  cases ho : sch.packOrder with
  | callbacksFirst => exact packedValue_of_callbacksFirst ho d a a
  | packFirst => exact packedValue_of_packFirst ho d a a

/-- Settles O32: the loop's turns give the value and the events of a READ that completes; only a callback refuses. -/
theorem registerReadFailsOnlyByAConstantChange : Obligations.RegisterReadFailsOnlyByAConstantChange := by
  intro s off wb d hr
  cases h : exec (.rd off wb) s with
  | next t =>
    obtain ⟨vals, ev, hturns, -, rfl⟩ := execRd_turns hr h
    refine .inl ⟨_, _, rfl, rfl, fun ho => ?_, fun ho => ?_, ?_⟩
    · rw [packedValue_of_callbacksFirst ho]; rfl
    · rw [packedValue_of_packFirst ho]; rfl
    · refine turns_forall_events hturns fun f _ _ _ hf e he dg hdg => ⟨f.lo, ?_⟩
      subst hdg
      exact Event.diag.inj (readTurn_diagnostics hf he rfl)
  | fault r => nomatch r
  | refused r =>
    obtain ⟨e, -, hread⟩ := execRd_refused h
    rw [regRead_error hread]
    exact .inr rfl

/-! ### The packed value as a sum (40_field_ops.md R120, R121) -/

/-- The sum of the readable fields at their places, each with the value `x` gives it. -/
def readableSum (x : FieldDecl → Nat) (fs : List FieldDecl) : Nat :=
  (fs.map fun f => if storageKind f.kind = true ∧ f.mode ≠ .write then x f * 2 ^ f.lo else 0).sum

theorem readableField_iff (f : FieldDecl) :
    readableField f = true ↔ storageKind f.kind = true ∧ f.mode ≠ .write := by
  simp [readableField]

theorem readableSum_cons (x : FieldDecl → Nat) (f : FieldDecl) (fs : List FieldDecl) :
    readableSum x (f :: fs) = (if readableField f then x f * 2 ^ f.lo else 0) + readableSum x fs := by
  rw [readableSum, List.map_cons, List.sum_cons, if_congr (readableField_iff f) rfl rfl]
  rfl

theorem readableSum_congr {x y : FieldDecl → Nat} {fs : List FieldDecl}
    (h : ∀ f ∈ fs, readableField f = true → x f = y f) : readableSum x fs = readableSum y fs := by
  induction fs with
  | nil => rfl
  | cons f fs ih =>
    rw [readableSum_cons, readableSum_cons, ih fun g hg => h g (List.mem_cons_of_mem f hg)]
    split
    · rename_i hr; rw [h f List.mem_cons_self hr]
    · rfl

/-- Fields from bit `p` on give a multiple of `2 ^ p`. -/
theorem two_pow_dvd_readableSum (x : FieldDecl → Nat) {fs : List FieldDecl} {p : Nat} (h : ∀ f ∈ fs, p ≤ f.lo) :
    2 ^ p ∣ readableSum x fs := by
  induction fs with
  | nil => exact Nat.dvd_zero _
  | cons f fs ih =>
    rw [readableSum_cons]
    refine Nat.dvd_add ?_ (ih fun g hg => h g (List.mem_cons_of_mem f hg))
    split
    · exact Nat.dvd_mul_left_of_dvd (Nat.pow_dvd_pow 2 (h f List.mem_cons_self)) _
    · exact Nat.dvd_zero _

theorem packField_toNat {reg : Nat} {vals : Store} {f : FieldDecl} (hW : f.lo + f.width ≤ 64)
    (hv : readableField f = true → (vals.val reg f.lo).toNat < 2 ^ f.width) :
    (packField reg vals f).toNat = if readableField f then (vals.val reg f.lo).toNat * 2 ^ f.lo else 0 := by
  rw [packField]
  split
  · rename_i hr; exact shiftLeft_toNat_of_fits (hv hr) hW
  · rfl

/-- A field contributes no bit above its own. -/
theorem packField_lt {reg : Nat} {vals : Store} {f : FieldDecl} {n : Nat} (hn : f.lo + f.width ≤ n)
    (hv : readableField f = true → (vals.val reg f.lo).toNat < 2 ^ f.width) :
    (packField reg vals f).toNat < 2 ^ n := by
  rw [fits_iff_getLsbD]
  intro i hi
  rw [packField_getLsbD hv, decide_eq_false (by omega), Bool.and_false, Bool.false_and]

section
variable {reg : Nat} {vals : Store} {fs : List FieldDecl}
  (hv : ∀ f ∈ fs, readableField f = true → (vals.val reg f.lo).toNat < 2 ^ f.width)
include hv

theorem pack_lt {W : Nat} (hW : ∀ f ∈ fs, f.lo + f.width ≤ W) : (pack reg vals fs).toNat < 2 ^ W := by
  induction fs with
  | nil => exact Nat.two_pow_pos W
  | cons f fs ih =>
    exact fits_or (packField_lt (hW f List.mem_cons_self) (hv f List.mem_cons_self))
      (ih (fun g hg => hv g (List.mem_cons_of_mem f hg)) fun g hg => hW g (List.mem_cons_of_mem f hg))

/-- The OR of the contributions is their sum, since the fields lie apart. -/
theorem pack_toNat (ho : fs.Pairwise (fun a b => a.lo + a.width ≤ b.lo)) (hW : ∀ f ∈ fs, f.lo + f.width ≤ 64) :
    (pack reg vals fs).toNat = readableSum (fun f => (vals.val reg f.lo).toNat) fs := by
  induction fs with
  | nil => rfl
  | cons f fs ih =>
    rw [List.pairwise_cons] at ho
    have hvf := hv f List.mem_cons_self
    have hrest := ih (fun g hg => hv g (List.mem_cons_of_mem f hg)) ho.2 fun g hg => hW g (List.mem_cons_of_mem f hg)
    obtain ⟨m, hm⟩ := two_pow_dvd_readableSum (fun f => (vals.val reg f.lo).toNat) ho.1
    have hadd := Nat.two_pow_add_eq_or_of_lt (packField_lt le_rfl hvf) m
    rw [pack, BitVec.toNat_or, hrest, hm, Nat.or_comm, ← hadd, ← hm, readableSum_cons,
      packField_toNat (hW f List.mem_cons_self) hvf, Nat.add_comm]

end

/-- The packed value of a register whose stored values have their widths, as a sum. -/
theorem pack_fields_toNat {s : State} (hi : s.Inv) {d : RegDecl} (hd : d ∈ s.bank.schema.regs) :
    (pack d.offset s.vals (s.fields d)).toNat = readableSum (fun f => (s.field d f).toNat) (s.fields d) := by
  have hW := schemaWidth_le s.bank.ok
  refine pack_toNat (fun f hf hr => ?_) (layout_ordered s.bank.ok hd) fun f hf => ?_
  · exact hi.fits d hd f (List.mem_filter.2 ⟨hf, ((readableField_iff f).1 hr).1⟩)
  · have := (layout_bounds s.bank.ok hd hf).2
    omega

/-- READ of a register without read callbacks: the lane of the packed value, and the TaggedReads. -/
theorem execRd_of_no_rcb {s : State} {off : Word} {wb : BitVec 4} {d : RegDecl}
    (hr : Reaches s off.toNat wb.toNat d) (hrcb : ∀ f ∈ s.fields d, f.rcb = none) :
    exec (.rd off wb) s = .next (s.answer
      (extractLane s.bank.schema off.toNat wb.toNat (pack d.offset s.vals (s.fields d))) s.vals
      ((s.fields d).flatMap (taggedEvents d.offset))) := by
  rw [exec_rd, execRd_reaches hr, regRead_of_no_rcb hrcb]
  rfl

theorem flatMap_taggedEvents (reg : Nat) (fs : List FieldDecl) :
    fs.flatMap (taggedEvents reg) =
      (fs.filter fun f => decide (f.kind = .tagged)).map fun f => .diag (.field .taggedRead reg f.lo 0) := by
  rw [← flatMap_ite_singleton]
  simp only [decide_eq_true_eq]
  rfl

/-- Settles O29: the lane is a slice of the packed value, which is the sum of the readable fields. -/
theorem readWithoutCallbacksReturnsTheLane : Obligations.ReadWithoutCallbacksReturnsTheLane := by
  intro s off wb d hi hr hrcb
  refine ⟨extractLane s.bank.schema off.toNat wb.toNat (pack d.offset s.vals (s.fields d)), ?_, ?_⟩
  · rw [execRd_of_no_rcb hr hrcb, flatMap_taggedEvents]
    rfl
  · rw [extractLane, slice_toNat, pack_fields_toNat hi hr.declared]
    rfl

/-! ### The native lane (42_bus_ops.md R181) -/

theorem slice_zero (v : Word) (n : Nat) : slice v 0 n = trunc n v := by
  rw [slice, BitVec.ushiftRight_zero, trunc]

/-- The fields of a register determine its value. -/
theorem trunc_eq_of_slices {W : Nat} {d : RegDecl} {x y : Word}
    (h : ∀ f ∈ layout W d, slice x f.lo f.width = slice y f.lo f.width) : trunc W x = trunc W y := by
  apply BitVec.eq_of_getLsbD_eq
  intro i _
  rw [trunc_getLsbD, trunc_getLsbD]
  by_cases hi : i < W
  · obtain ⟨f, hf, hfi⟩ := layout_covers (d := d) hi
    have hbit := congrArg (BitVec.getLsbD · (i - f.lo)) (h f hf)
    simp only [slice_getLsbD, show f.lo + (i - f.lo) = i by omega, show i - f.lo < f.width by omega] at hbit
    simpa [hi] using hbit
  · simp [hi]

section
variable {s : State} {off : Nat} {d : RegDecl} (hr : Reaches s off s.bank.schema.native d)
include hr

theorem extractLane_native_eq_trunc (R : Word) :
    extractLane s.bank.schema off s.bank.schema.native R = trunc (schemaWidth s.bank.schema) R := by
  rw [extractLane, native_lane hr, Nat.mul_zero, slice_zero, schemaWidth]

variable {f : FieldDecl} (hf : f ∈ s.fields d)
include hf

theorem meetsLane_native : meetsLane (off % s.bank.schema.native) s.bank.schema.native f = true := by
  obtain ⟨hwidth, hle⟩ := layout_bounds s.bank.ok hr.declared hf
  rw [schemaWidth] at hle
  rw [hr.aligned, meetsLane, Bool.and_eq_true, decide_eq_true_iff, decide_eq_true_iff]
  omega

/-- A native write brings a field the bits of DATA at its place. -/
theorem incomingBits_native (data : Word) :
    incomingBits (off % s.bank.schema.native) s.bank.schema.native data f = slice data f.lo f.width := by
  have hle := (layout_bounds s.bank.ok hr.declared hf).2
  rw [schemaWidth] at hle
  rw [← slice_placeWriteData hr, placeWriteData, native_lane hr, Nat.mul_zero, BitVec.shiftLeft_zero]
  apply BitVec.eq_of_getLsbD_eq
  intro i _
  rw [slice_getLsbD, slice_getLsbD, trunc_getLsbD]
  by_cases hi : i < f.width
  · simp [show f.lo + i < 8 * s.bank.schema.native by omega]
  · simp [hi]

/-- A native write touches every bit of a field. -/
theorem touchedBits_native :
    touchedBits (off % s.bank.schema.native) s.bank.schema.native f = mask f.width := by
  have hle := (layout_bounds s.bank.ok hr.declared hf).2
  have hW := schemaWidth_le s.bank.ok
  rw [schemaWidth] at hle hW
  rw [← slice_laneMask hr]
  apply BitVec.eq_of_getLsbD_eq
  intro i hi
  rw [slice_getLsbD, laneMask_getLsbD, native_lane hr, mask_getLsbD, Bool.eq_iff_iff]
  simp only [Bool.and_eq_true, decide_eq_true_eq]
  omega

/-- A native write's candidate is the bits of DATA at the field's place. -/
theorem candidateBits_native (data : Word) {o : Word} (ho : o.toNat < 2 ^ f.width) :
    candidateBits (off % s.bank.schema.native) s.bank.schema.native data f o = slice data f.lo f.width := by
  have hkept : o &&& ~~~ mask f.width = 0 := by
    apply BitVec.eq_of_getLsbD_eq
    intro i hi
    by_cases hw : i < f.width
    · simp [hi, hw]
    · simp [(fits_iff_getLsbD ..).1 ho i (by omega)]
  rw [candidateBits, incomingBits_native hr hf, touchedBits_native hr hf, hkept]
  exact BitVec.or_zero

end

/-! ### A native WRITE without write callbacks (40_field_ops.md R128, R129, R131) -/

/-- WRITE without write callbacks leaves the written value in each storage field. -/
theorem execWr_field {s t : State} {off : Word} {wb : BitVec 4} {data : Word} {d : RegDecl}
    (hr : Reaches s off.toNat wb.toNat d) (hw : ∀ g ∈ s.fields d, g.wcb = none)
    (h : exec (.wr off wb data) s = .next t) {f : FieldDecl} (hf : f ∈ s.storage d) :
    t.field d f = writtenValue (off.toNat % s.bank.schema.native) wb.toNat data f (s.field d f) := by
  obtain ⟨c, hc, rfl⟩ := execWr_completed hr h
  exact regWrite_field hr hw hc hf

/-- WRITE without write callbacks completes. -/
theorem execWr_isOk_of_no_wcb {s : State} {off : Word} {wb : BitVec 4} {d : RegDecl}
    (hr : Reaches s off.toNat wb.toNat d) (hw : ∀ g ∈ s.fields d, g.wcb = none) (data : Word) :
    ∃ t, exec (.wr off wb data) s = .next t :=
  execWr_isOk hr data fun f hf _ p hp => by rw [hw f hf] at hp; cases hp

section
variable {s t : State} {off : Word} {wb : BitVec 4} {data : Word} {d : RegDecl}
  (hr : Reaches s off.toNat wb.toNat d) (hn : wb.toNat = s.bank.schema.native)
  (hw : ∀ g ∈ s.fields d, g.wcb = none) (h : exec (.wr off wb data) s = .next t) {f : FieldDecl}
  (hf : f ∈ s.storage d)
include hr hn hw h hf

/-- A native write clears the ones of its slice in a WriteOneToClear field (40_field_ops.md R131). -/
theorem execWr_native_writeOneToClear (hm : f.mode = .writeOneToClear) :
    t.field d f = s.field d f &&& ~~~ slice data f.lo f.width := by
  have hl : f ∈ s.fields d := (List.mem_filter.1 hf).1
  have hrN := hn ▸ hr
  rw [execWr_field hr hw h hf, hn, writtenValue, meetsLane_native hrN hl, hm, incomingBits_native hrN hl]
  rfl

/-- A native write stores its slice in a ReadWrite field, for an Enum field when the slice is in V
(40_field_ops.md R128, R129). -/
theorem execWr_native_readWrite (hm : f.mode = .readWrite) (hfit : (s.field d f).toNat < 2 ^ f.width)
    (hv : f.kind = .enum → (slice data f.lo f.width).toNat ∈ f.valid) :
    t.field d f = slice data f.lo f.width := by
  have hl : f ∈ s.fields d := (List.mem_filter.1 hf).1
  have hrN := hn ▸ hr
  rw [execWr_field hr hw h hf, hn, writtenValue, meetsLane_native hrN hl, hm, candidateBits_native hrN hl data hfit]
  simp only [Bool.true_eq_false, if_false]
  exact if_neg fun hc => hc.2 (hv hc.1)

end

/-- Settles O43: both writes clear the same ones. -/
theorem writeOneToClearClearsWrittenOnes : Obligations.WriteOneToClearClearsWrittenOnes := by
  intro s off wb data d f hr hn hw hf hm
  obtain ⟨t, ht⟩ := execWr_isOk_of_no_wcb hr hw data
  have hb := exec_bank ht
  have hrt := reaches_of_bank hb hr
  have hwt : ∀ g ∈ t.fields d, g.wcb = none := by rwa [fields_def, hb]
  obtain ⟨u, hu⟩ := execWr_isOk_of_no_wcb hrt hwt data
  have hfirst := execWr_native_writeOneToClear hr hn hw ht hf hm
  have hsecond := execWr_native_writeOneToClear hrt (hb ▸ hn) hwt hu (by rwa [storage_def, hb]) hm
  refine ⟨t, u, ht, hu, ?_, ?_⟩
  · rw [hfirst, slice_eq_ofNat]
  · rw [hsecond, hfirst, BitVec.and_assoc, BitVec.and_self]

/-- Settles O48: the read packs what the write stored, which is the slice of `v` at every field. -/
theorem writeThenReadRoundTrips : Obligations.WriteThenReadRoundTrips := by
  intro s off wb v d hi hr hn hfit hshape hcb henum hres
  have hw : ∀ g ∈ s.fields d, g.wcb = none := fun g hg => (hcb g hg).1
  obtain ⟨t, ht⟩ := execWr_isOk_of_no_wcb hr hw v
  have hb := exec_bank ht
  have hrt := reaches_of_bank hb hr
  have hfields : t.fields d = s.fields d := by rw [fields_def, hb, fields_def]
  have hslices : ∀ f ∈ s.fields d,
      slice (pack d.offset t.vals (s.fields d)) f.lo f.width = slice v f.lo f.width := by
    intro f hf
    rw [slice_pack_fields hb (exec_inv hi ht) hr.declared hf]
    rcases hshape f hf with hk | ⟨hk, hm⟩
    · rw [if_neg (by simp [readableField, storageKind, hk]), slice_eq_ofNat, hres f hf hk]
      rfl
    · have hs : f ∈ s.storage d := List.mem_filter.2 ⟨hf, hk⟩
      rw [if_pos ((readableField_iff f).2 ⟨hk, by simp [hm]⟩)]
      exact execWr_native_readWrite hr hn hw ht hs hm (hi.fits d hr.declared f hs) fun he => by
        rw [slice_toNat]; exact henum f hf he
  have hvalue : extractLane t.bank.schema off.toNat wb.toNat (pack d.offset t.vals (t.fields d)) = v := by
    rw [hb, hfields, hn, extractLane_native_eq_trunc (hn ▸ hr), trunc_eq_of_slices hslices, trunc_eq_self hfit]
  have hread := execRd_of_no_rcb hrt fun f hf => (hcb f (hfields ▸ hf)).2
  exact ⟨t, _, _, ht, hread, by rw [answer_replies, hvalue]⟩

/-! ### READ after RESET (41_register_ops.md R166, R169) -/

/-- The stored values of a register whose listed fields have all bits set. -/
def onesVals (d : RegDecl) (fs : List FieldDecl) : Store := regReset { d with reset := BitVec.allOnes 64 } fs []

theorem val_onesVals (d : RegDecl) {fs : List FieldDecl} (hlo : fs.Pairwise (fun a b => a.lo ≠ b.lo)) {f : FieldDecl}
    (hf : f ∈ fs) : (onesVals d fs).val d.offset f.lo = slice (BitVec.allOnes 64) f.lo f.width :=
  val_regReset_of_mem { d with reset := BitVec.allOnes 64 } fs [] hf hlo

theorem slice_allOnes {lo width : Nat} (h : lo + width ≤ 64) : slice (BitVec.allOnes 64) lo width = mask width := by
  apply BitVec.eq_of_getLsbD_eq
  intro i hi
  rw [slice_getLsbD, BitVec.getLsbD_allOnes, mask_getLsbD, Bool.eq_iff_iff]
  simp only [Bool.and_eq_true, decide_eq_true_eq]
  omega

theorem slice_and (x y : Word) (lo width : Nat) : slice (x &&& y) lo width = slice x lo width &&& slice y lo width := by
  apply BitVec.eq_of_getLsbD_eq
  intro i _
  by_cases hi : i < width <;> simp [hi]

/-- The bits of a register that a read shows. -/
def readMask (fs : List FieldDecl) : Word := BitVec.ofNat 64 (readableSum (fun f => 2 ^ f.width - 1) fs)

section
variable {sch : Schema} (h : schemaWellFormed sch = true) {d : RegDecl} (hd : d ∈ sch.regs)
include h hd

theorem layout_fits_word : ∀ f ∈ layout (schemaWidth sch) d, f.lo + f.width ≤ 64 := fun _ hf =>
  (layout_bounds h hd hf).2.trans (schemaWidth_le h)

theorem val_onesVals_layout {f : FieldDecl} (hf : f ∈ layout (schemaWidth sch) d) :
    (onesVals d (layout (schemaWidth sch) d)).val d.offset f.lo = mask f.width := by
  rw [val_onesVals d ((layout_lo_lt h hd).imp Nat.ne_of_lt) hf, slice_allOnes (layout_fits_word h hd f hf)]

theorem mask_width_lt {f : FieldDecl} (hf : f ∈ layout (schemaWidth sch) d) : (mask f.width).toNat < 2 ^ f.width := by
  have := layout_fits_word h hd f hf
  have := Nat.two_pow_pos f.width
  rw [mask_toNat _ (by omega)]
  omega

theorem onesVals_fits : ∀ f ∈ layout (schemaWidth sch) d, readableField f = true →
    ((onesVals d (layout (schemaWidth sch) d)).val d.offset f.lo).toNat < 2 ^ f.width := fun f hf _ => by
  rw [val_onesVals_layout h hd hf]
  exact mask_width_lt h hd hf

/-- The bits that a read shows are what it answers when all bits are set. -/
theorem readMask_eq_pack : readMask (layout (schemaWidth sch) d) =
    pack d.offset (onesVals d (layout (schemaWidth sch) d)) (layout (schemaWidth sch) d) := by
  have hsum := pack_toNat (onesVals_fits h hd) (layout_ordered h hd) (layout_fits_word h hd)
  rw [readMask, ← readableSum_congr fun f hf _ => ?_, ← hsum, BitVec.ofNat_toNat, BitVec.setWidth_eq]
  have := layout_fits_word h hd f hf
  rw [val_onesVals_layout h hd hf, mask_toNat _ (by omega)]

theorem readMask_lt : (readMask (layout (schemaWidth sch) d)).toNat < 2 ^ schemaWidth sch := by
  rw [readMask_eq_pack h hd]
  exact pack_lt (onesVals_fits h hd) fun f hf => (layout_bounds h hd hf).2

/-- A field's bits under the mask: all where a read shows the field, else none. -/
theorem slice_and_readMask (x : Word) {f : FieldDecl} (hf : f ∈ layout (schemaWidth sch) d) :
    slice (x &&& readMask (layout (schemaWidth sch) d)) f.lo f.width =
      if readableField f then slice x f.lo f.width else 0 := by
  rw [slice_and, readMask_eq_pack h hd,
    slice_pack (layout_ordered h hd) (layout_fits_word h hd) (onesVals_fits h hd) hf]
  split
  · rw [val_onesVals_layout h hd hf]
    exact trunc_eq_self (slice_lt ..)
  · exact BitVec.and_zero

theorem and_readMask_lt (x : Word) : (x &&& readMask (layout (schemaWidth sch) d)).toNat < 2 ^ schemaWidth sch := by
  rw [BitVec.and_comm]
  exact fits_and_left x (readMask_lt h hd)

/-- After RESET the packed value is the reset value in the readable bits. -/
theorem trunc_pack_resetVals (vals : Store) :
    trunc (schemaWidth sch) (pack d.offset (resetVals sch vals) (layout (schemaWidth sch) d)) =
      d.reset &&& readMask (layout (schemaWidth sch) d) := by
  have hval : ∀ f ∈ layout (schemaWidth sch) d, readableField f = true →
      (resetVals sch vals).val d.offset f.lo = resetSlice d f := fun f hf hr =>
    val_resetVals h hd (List.mem_filter.2 ⟨hf, ((readableField_iff f).1 hr).1⟩) vals
  rw [← trunc_eq_self (and_readMask_lt h hd d.reset)]
  refine trunc_eq_of_slices (d := d) fun f hf => ?_
  rw [slice_and_readMask h hd _ hf, slice_pack (layout_ordered h hd) (layout_fits_word h hd) (fun g hg hr => ?_) hf]
  · split
    · rename_i hr; exact hval f hf hr
    · rfl
  · rw [hval g hg hr]
    exact slice_lt ..

/-- Without Write-mode reset bits the readable bits hold the whole reset value. -/
theorem reset_and_readMask
    (hwrite : ∀ f ∈ storageFields (schemaWidth sch) d, f.mode = .write → resetSlice d f = 0) :
    d.reset &&& readMask (layout (schemaWidth sch) d) = trunc (schemaWidth sch) d.reset := by
  rw [← trunc_eq_self (and_readMask_lt h hd d.reset)]
  refine trunc_eq_of_slices (d := d) fun f hf => ?_
  rw [slice_and_readMask h hd _ hf]
  split
  · rfl
  · rename_i hr
    rw [readableField_iff] at hr
    cases hk : storageKind f.kind with
    | false => exact (reserved_reset_zero h hd hf hk).symm
    | true => exact (hwrite f (List.mem_filter.2 ⟨hf, hk⟩) (of_not_not fun hm => hr ⟨hk, hm⟩)).symm

end

/-- ApplyView of the register's own view changes nothing. -/
theorem applyView_same {reg : Nat} {u : View} {gs : List FieldDecl} {vals : Store}
    (h : ∀ g ∈ gs, viewValue g.lo u = vals.val reg g.lo) : applyView reg u gs vals = .ok vals := by
  induction gs with
  | nil => rfl
  | cons g gs ih =>
    rw [applyView, if_pos (h g List.mem_cons_self)]
    exact ih fun e he => h e (List.mem_cons_of_mem g he)

/-- The read loop keeps the stored values when each read callback leaves the register's view as it is. -/
theorem readFields_of_inert {reg : Nat} {storage fs : List FieldDecl} {vals : Store}
    (h : ∀ f ∈ fs, ∀ p, f.rcb = some p → runProgram (vals.val reg f.lo) (vals.val reg f.lo) p
      (viewOf reg vals storage) = viewOf reg vals storage) (ev : List Event) :
    ∃ ev', readFields reg storage fs ⟨vals, ev⟩ = .ok ⟨vals, ev'⟩ := by
  induction fs generalizing ev with
  | nil => exact ⟨ev, rfl⟩
  | cons f fs ih =>
    have hf : ∃ ev', fireRcb reg storage f ⟨vals, ev ++ taggedEvents reg f⟩ = .ok ⟨vals, ev'⟩ := by
      cases hp : f.rcb with
      | none => exact ⟨_, by rw [fireRcb, hp]⟩
      | some p =>
        have hrun : runCallback reg storage p (vals.val reg f.lo) (vals.val reg f.lo) vals = .ok vals := by
          rw [runCallback, h f List.mem_cons_self p hp]
          exact applyView_same fun g hg => viewValue_viewOf reg vals hg
        exact ⟨ev ++ taggedEvents reg f ++ [.cbRead reg f.lo (vals.val reg f.lo)], by simp only [fireRcb, hp, hrun]⟩
    obtain ⟨ev', hf⟩ := hf
    rw [readFields, hf]
    exact ih (fun g hg => h g (List.mem_cons_of_mem f hg)) ev'

/-- Only a storage field has a read callback (43_construction.md R221, CE13). -/
theorem mem_storage_of_rcb {s : State} {d : RegDecl} (hd : d ∈ s.bank.schema.regs) {f : FieldDecl}
    (hf : f ∈ s.fields d) {p : Program} (hp : f.rcb = some p) : f ∈ s.storage d := by
  refine List.mem_filter.2 ⟨hf, ?_⟩
  by_contra hk
  have hnone := (layout_callbacks_storage s.bank.ok hd hf (Bool.eq_false_iff.2 hk)).2
  rw [hnone] at hp
  cases hp

/-- READ of a register whose read callbacks leave its view as it is. -/
theorem execRd_of_inert {s : State} {off : Word} {wb : BitVec 4} {d : RegDecl} (hr : Reaches s off.toNat wb.toNat d)
    (h : ∀ f ∈ s.fields d, ∀ p, f.rcb = some p → runProgram (s.field d f) (s.field d f) p
      (viewOf d.offset s.vals (s.storage d)) = viewOf d.offset s.vals (s.storage d)) :
    ∃ ev, exec (.rd off wb) s = .next (s.answer
      (extractLane s.bank.schema off.toNat wb.toNat (pack d.offset s.vals (s.fields d))) s.vals ev) := by
  obtain ⟨ev, hloop⟩ := readFields_of_inert h []
  have hread : regRead s.bank.schema d s.vals = .ok (pack d.offset s.vals (s.fields d), ⟨s.vals, ev⟩) := by
    rw [regRead, ← storage_def, ← fields_def, hloop, fields_def, ← packedValue_self]
  exact ⟨ev, by rw [exec_rd, execRd_reaches hr, hread]; rfl⟩

/-- The view of a register after RESET. -/
theorem viewOf_resetVals {sch : Schema} (h : schemaWellFormed sch = true) {d : RegDecl} (hd : d ∈ sch.regs)
    (vals : Store) : viewOf d.offset (resetVals sch vals) (storageFields (schemaWidth sch) d) =
      (storageFields (schemaWidth sch) d).map fun g => ⟨g.lo, g.width, resetSlice d g⟩ :=
  List.map_congr_left fun g hg => by rw [val_resetVals h hd hg]

/-- After RESET, read callbacks that leave the register's reset view as it is change nothing. -/
theorem execRd_after_reset {s : State} {off : Word} {wb : BitVec 4} {d : RegDecl}
    (hr : Reaches s off.toNat wb.toNat d)
    (h : ∀ f ∈ s.fields d, ∀ p, f.rcb = some p → runProgram (resetSlice d f) (resetSlice d f) p
      ((s.storage d).map fun g => ⟨g.lo, g.width, resetSlice d g⟩) =
        (s.storage d).map fun g => ⟨g.lo, g.width, resetSlice d g⟩) :
    let t := s.answer 0 (resetVals s.bank.schema s.vals) []
    ∃ ev, exec (.rd off wb) t = .next (t.answer
      (extractLane s.bank.schema off.toNat wb.toNat (pack d.offset t.vals (s.fields d))) t.vals ev) := by
  intro t
  refine execRd_of_inert (reaches_of_bank (answer_bank ..) hr) fun f hf p hp => ?_
  have hfield : t.field d f = resetSlice d f :=
    val_resetVals s.bank.ok hr.declared (mem_storage_of_rcb hr.declared hf hp) s.vals
  have hview : viewOf d.offset t.vals (s.storage d) =
      (s.storage d).map fun g => ⟨g.lo, g.width, resetSlice d g⟩ :=
    viewOf_resetVals s.bank.ok hr.declared s.vals
  have hrun := h f hf p hp
  rw [← hview, ← hfield] at hrun
  exact hrun

/-- Settles O49: after RESET the packed value is the reset value in the readable bits, and the read packs these values
when no callback changes them or it packs first. -/
theorem readAfterResetShowsTheResetValue : Obligations.ReadAfterResetShowsTheResetValue := by
  intro s off wb d hr hn readBits resetView
  have hvalue : extractLane s.bank.schema off.toNat wb.toNat
      (pack d.offset (resetVals s.bank.schema s.vals) (s.fields d)) = d.reset &&& readBits := by
    rw [hn, extractLane_native_eq_trunc (hn ▸ hr)]
    exact trunc_pack_resetVals s.bank.ok hr.declared s.vals
  refine ⟨_, execRst_eq s, fun hinert => ?_, fun ho u hu => ?_, fun hwrite => ?_⟩
  · obtain ⟨ev, hread⟩ := execRd_after_reset hr hinert
    exact ⟨_, ev, hread, by rw [answer_replies, ← hvalue]; rfl⟩
  · obtain ⟨vals, ev, -, -, rfl⟩ := execRd_turns (reaches_of_bank (answer_bank ..) hr) hu
    refine ⟨ev, ?_⟩
    rw [answer_replies, answer_bank, answer_vals, packedValue_of_packFirst ho, ← hvalue]
    rfl
  · have hbits : d.reset &&& readBits = trunc (schemaWidth s.bank.schema) d.reset := by
      refine reset_and_readMask s.bank.ok hr.declared fun f hf hm => ?_
      exact BitVec.eq_of_toNat_eq ((resetSlice_toNat d f).trans (hwrite f hf hm))
    rw [hbits, trunc_toNat]

end Sys2Proof.Machine
end

section
/-! PROOFS. The statements of 42_bus_ops.md: the access checks, what READ and WRITE leave unchanged, the lane of a narrow
READ and of a narrow WRITE, and SIZE. -/

namespace Sys2Proof.Machine

/-! ### The access checks (42_bus_ops.md R186) -/

section
variable {sch : Schema} {off w : Nat}

theorem accessCheck_illegalWidth (hw : w ∉ sch.permitted) : accessCheck sch off w = .error .illegalWidth := by
  rw [accessCheck, legalWidth, if_pos (decide_eq_false hw)]

variable (hw : w ∈ sch.permitted)
include hw

theorem accessCheck_misaligned (ha : off % w ≠ 0) : accessCheck sch off w = .error .misaligned := by
  rw [accessCheck, legalWidth, if_neg (by simp [hw]), if_pos ha]

variable (ha : off % w = 0)
include ha

theorem accessCheck_outOfRange (hs : sch.size < off + w) : accessCheck sch off w = .error .outOfRange := by
  rw [accessCheck, legalWidth, if_neg (by simp [hw]), if_neg (not_not_intro ha), if_pos hs]

theorem accessCheck_unmapped (hs : ¬ sch.size < off + w) (hm : ∀ d ∈ sch.regs, d.offset ≠ off - off % sch.native) :
    accessCheck sch off w = .error .unmapped := by
  rw [accessCheck, legalWidth, if_neg (by simp [hw]), if_neg (not_not_intro ha), if_neg hs, slotBase,
    findReg_eq_none.2 hm]

end

/-- An access that fails a check is absorbed, READ and WRITE alike (60_exceptions.md R252). -/
theorem exec_access_absorbed {s : State} {off : Word} {wb : BitVec 4} {a : AccessAnomaly}
    (h : accessCheck s.bank.schema off.toNat wb.toNat = .error a) (data : Word) :
    exec (.rd off wb) s = .next (s.absorb (.access a .read off wb)) ∧
      exec (.wr off wb data) s = .next (s.absorb (.access a .write off wb)) := by
  rw [exec_rd, exec_wr, execRd, execWr, h]
  exact ⟨rfl, rfl⟩

/-! ### The events of an access that reaches a register (60_exceptions.md R251, 40_field_ops.md R140) -/

/-- The one reply that an answer adds carries its events. -/
theorem events_of_answer {s : State} {v : Word} {vals : Store} {events : List Event} {r : Reply}
    (h : (s.answer v vals events).replies = s.replies ++ [r]) : r.events = events := by
  rw [answer_replies] at h
  have hr : ⟨v, events⟩ = r := List.singleton_inj.1 (List.append_cancel_left h)
  rw [← hr]

/-- Every event of a pass is one of the turn of some field. -/
theorem exists_turn_of_mem {T : FieldDecl → Store → Store → List Event → Prop} {fs : List FieldDecl} {a c : Store}
    {ev : List Event} (h : Turns T fs a c ev) {e : Event} (he : e ∈ ev) :
    ∃ f ∈ fs, ∃ a b ev, T f a b ev ∧ e ∈ ev := by
  induction h with
  | nil a => cases he
  | @cons f fs a b c ev ev' hf _ ih =>
    rcases List.mem_append.1 he with he | he
    · exact ⟨f, List.mem_cons_self, a, b, ev, hf, he⟩
    · obtain ⟨g, hg, hturn⟩ := ih he
      exact ⟨g, List.mem_cons_of_mem f hg, hturn⟩

/-- What an event of a WRITE at a field can be: a diagnostic of the field, no TaggedRead, or its Cb(Write). -/
inductive WriteEvent (reg lo : Nat) : Event → Prop where
  | diag {code : FieldAnomaly} (hc : code ≠ .taggedRead) (v : Word) : WriteEvent reg lo (.diag (.field code reg lo v))
  | callback (old new : Word) : WriteEvent reg lo (.cbWrite reg lo old new)

theorem writeEvent_field {reg lo : Nat} {e : Event} (h : WriteEvent reg lo e) : eventField e = some (reg, lo) := by
  cases h <;> rfl

theorem writeEvent_of_mem_diagnostics {k w : Nat} {data : Word} {reg : Nat} {f : FieldDecl} {o : Word} {e : Event}
    (he : e ∈ writeDiagnostics k w data reg f o) : meetsLane k w f = true ∧ WriteEvent reg f.lo e := by
  have hdiag : ∀ {code v}, code ≠ .taggedRead → e ∈ [Event.diag (.field code reg f.lo v)] → WriteEvent reg f.lo e :=
    fun hc he => by rw [List.mem_singleton.1 he]; exact .diag hc _
  cases hm : meetsLane k w f with
  | false => rw [writeDiagnostics, if_pos hm] at he; cases he
  | true =>
    refine ⟨rfl, ?_⟩
    rw [writeDiagnostics, if_neg (by simp [hm])] at he
    split_ifs at he with hreserved htagged hreadOnly hinvalid
    · exact hdiag (by decide) he
    · exact hdiag (by decide) he
    · exact hdiag (by decide) he
    · exact hdiag (by decide) he
    · cases he

/-- A write turn emits events only for a field in the lane. -/
theorem writeTurn_event {k w : Nat} {data : Word} {reg : Nat} {storage : List FieldDecl} {f : FieldDecl} {a b : Store}
    {ev : List Event} (h : WriteTurn k w data reg storage f a b ev) {e : Event} (he : e ∈ ev) :
    meetsLane k w f = true ∧ WriteEvent reg f.lo e := by
  by_cases hc : meetsLane k w f = true ∧ writableField f = true
  · cases hp : f.wcb with
    | none =>
      rw [(h.commit hc hp).2] at he
      exact writeEvent_of_mem_diagnostics he
    | some p =>
      rw [(h.callback hc p hp).2, List.mem_append] at he
      rcases he with he | he
      · exact writeEvent_of_mem_diagnostics he
      · rw [List.mem_singleton.1 he]
        exact ⟨hc.1, .callback ..⟩
  · rw [(h.keep hc).2] at he
    exact writeEvent_of_mem_diagnostics he

/-- WRITE to a register that completes: every event is about a field in the lane. -/
theorem execWr_event {s t : State} {off : Word} {wb : BitVec 4} {data : Word} {d : RegDecl}
    (hr : Reaches s off.toNat wb.toNat d) (h : exec (.wr off wb data) s = .next t) :
    ∃ r : Reply, t.replies = s.replies ++ [r] ∧ ∀ e ∈ r.events, ∃ f ∈ s.fields d,
      meetsLane (off.toNat % s.bank.schema.native) wb.toNat f = true ∧ WriteEvent d.offset f.lo e := by
  obtain ⟨c, hc, rfl⟩ := execWr_completed hr h
  refine ⟨_, rfl, fun e he => ?_⟩
  obtain ⟨f, hf, _, _, _, hturn, hmem⟩ := exists_turn_of_mem (regWrite_turns hr hc) he
  exact ⟨f, hf, writeTurn_event hturn hmem⟩

/-- READ of a register reports no access diagnostic. -/
theorem execRd_no_access {s t : State} {off : Word} {wb : BitVec 4} {d : RegDecl} (hr : Reaches s off.toNat wb.toNat d)
    (h : exec (.rd off wb) s = .next t) {r : Reply} (hrep : t.replies = s.replies ++ [r]) (a : AccessAnomaly)
    (dir : Dir) (o : Word) (b : BitVec 4) : .diag (.access a dir o b) ∉ r.events := by
  intro he
  obtain ⟨vals, ev, hturns, -, rfl⟩ := execRd_turns hr h
  rw [events_of_answer hrep] at he
  obtain ⟨f, -, _, _, _, hturn, hmem⟩ := exists_turn_of_mem hturns he
  cases readTurn_diagnostics hturn hmem rfl

/-- WRITE to a register reports no access diagnostic. -/
theorem execWr_no_access {s t : State} {off : Word} {wb : BitVec 4} {data : Word} {d : RegDecl}
    (hr : Reaches s off.toNat wb.toNat d) (h : exec (.wr off wb data) s = .next t) {r : Reply}
    (hrep : t.replies = s.replies ++ [r]) (a : AccessAnomaly) (dir : Dir) (o : Word) (b : BitVec 4) :
    .diag (.access a dir o b) ∉ r.events := by
  intro he
  obtain ⟨r', hrep', hev⟩ := execWr_event hr h
  cases List.append_cancel_left (hrep.symm.trans hrep')
  obtain ⟨f, -, -, hw⟩ := hev _ he
  cases hw

/-- Settles O26: each branch is the check that fails there; past all four the access reaches a register. -/
theorem accessChecksAbsorbInOrder : Obligations.AccessChecksAbsorbInOrder := by
  intro s off wb data absorbed
  have habsorbed : ∀ {a}, accessCheck s.bank.schema off.toNat wb.toNat = .error a → absorbed a :=
    fun h => exec_access_absorbed h data
  split_ifs with hw ha hs hm
  · exact habsorbed (accessCheck_misaligned hw ha)
  · exact habsorbed (accessCheck_outOfRange hw (not_not.1 ha) hs)
  · exact habsorbed (accessCheck_unmapped hw (not_not.1 ha) hs hm)
  · push Not at ha hs hm
    obtain ⟨d, hd, hslot⟩ := hm
    have hr : Reaches s off.toNat wb.toNat d := ⟨hw, ha, hs, hd, hslot⟩
    refine ⟨⟨d, hr⟩, fun t r h hrep e he a dir o b hea => ?_⟩
    subst hea
    rcases h with h | h
    · exact execRd_no_access hr h hrep a dir o b he
    · exact execWr_no_access hr h hrep a dir o b he
  · exact habsorbed (accessCheck_illegalWidth hw)

/-! ### The fields that an access leaves as they were (42_bus_ops.md R187, R188, R191) -/

/-- A stored value that every turn keeps is kept by the pass. -/
theorem turns_keep {T : FieldDecl → Store → Store → List Event → Prop} {reg lo : Nat} {fs : List FieldDecl}
    {a c : Store} {ev : List Event} (h : Turns T fs a c ev)
    (hT : ∀ f ∈ fs, ∀ a b ev, T f a b ev → b.val reg lo = a.val reg lo) : c.val reg lo = a.val reg lo := by
  induction h with
  | nil a => rfl
  | @cons f fs a b c ev ev' hf _ ih =>
    exact (ih fun g hg => hT g (List.mem_cons_of_mem f hg)).trans (hT f List.mem_cons_self _ _ _ hf)

section
variable {reg : Nat} {storage : List FieldDecl} (hlo : storage.Pairwise (fun a b => a.lo < b.lo)) {f g : FieldDecl}
  (hg : g ∈ storage) {a b : Store} {ev : List Event}
include hlo hg

/-- A read turn keeps a field that the callback keeps. -/
theorem readTurn_keeps (h : ReadTurn reg storage f a b ev) (hk : ∀ p, f.rcb = some p → callbackKeeps p g.lo) :
    b.val reg g.lo = a.val reg g.lo := by
  cases hp : f.rcb with
  | none => rw [(h.quiet hp).1]
  | some p => exact runCallback_keeps hlo (h.callback p hp).1 hg (hk p hp)

/-- A write turn keeps a field that it does not commit and that a callback it may run keeps. -/
theorem writeTurn_keeps {k w : Nat} {data : Word} (h : WriteTurn k w data reg storage f a b ev)
    (hne : meetsLane k w f = true ∧ writableField f = true → g.lo ≠ f.lo)
    (hk : meetsLane k w f = true → ∀ p, f.wcb = some p → callbackKeeps p g.lo) : b.val reg g.lo = a.val reg g.lo := by
  by_cases hc : meetsLane k w f = true ∧ writableField f = true
  · have hput := val_put_of_ne a (writtenValue k w data f (a.val reg f.lo)) (reg := reg) (lo := f.lo) (reg' := reg)
      (lo' := g.lo) fun e => hne hc (congrArg Prod.snd e)
    cases hp : f.wcb with
    | none => rw [(h.commit hc hp).1, hput]
    | some p => exact (runCallback_keeps hlo (h.callback hc p hp).1 hg (hk hc.1 p hp)).trans hput
  · rw [(h.keep hc).1]

end

/-- WRITE keeps a field that is not writable or outside the lane, when no callback of a field in the lane changes it. -/
theorem execWr_keeps {s t : State} {off : Word} {wb : BitVec 4} {data : Word} {d : RegDecl}
    (hr : Reaches s off.toNat wb.toNat d) (h : exec (.wr off wb data) s = .next t) {g : FieldDecl}
    (hg : g ∈ s.storage d)
    (hout : writableField g = false ∨ meetsLane (off.toNat % s.bank.schema.native) wb.toNat g = false)
    (hk : ∀ f ∈ s.fields d, meetsLane (off.toNat % s.bank.schema.native) wb.toNat f = true → ∀ p, f.wcb = some p →
      callbackKeeps p g.lo) : t.field d g = s.field d g := by
  obtain ⟨c, hc, rfl⟩ := execWr_completed hr h
  refine turns_keep (regWrite_turns hr hc) fun f hf _ _ _ hturn =>
    writeTurn_keeps (storage_lo_lt s.bank.ok hr.declared) hg hturn (fun ⟨hm, hw⟩ hlo => ?_) (hk f hf)
  have hgf : g = f := layout_lo_inj s.bank.ok hr.declared (List.mem_filter.1 hg).1 hf hlo
  subst hgf
  rcases hout with hout | hout
  · rw [hw] at hout; cases hout
  · rw [hm] at hout; cases hout

/-- Settles O28: the callbacks that spare the constants do not refuse, and each turn of the loop keeps the field. -/
theorem readCompletesWhenCallbacksSpareConstants : Obligations.ReadCompletesWhenCallbacksSpareConstants := by
  intro s off wb d hr hp
  obtain ⟨t, ht⟩ := execRd_isOk hr hp
  obtain ⟨vals, ev, hturns, hc, rfl⟩ := execRd_turns hr ht
  refine ⟨_, _, ht, rfl, rfl, rfl, hc.elsewhere, fun g hg hk => ?_⟩
  exact turns_keep hturns fun f hf _ _ _ hturn =>
    readTurn_keeps (storage_lo_lt s.bank.ok hr.declared) hg hturn (hk f hf)

/-- Settles O36. -/
theorem writeCompletesWhenCallbacksSpareConstants : Obligations.WriteCompletesWhenCallbacksSpareConstants := by
  intro s off wb data d hr hp
  obtain ⟨t, ht⟩ := execWr_isOk hr data hp
  have hkeeps := fun g hg => execWr_keeps hr ht (g := g) hg
  obtain ⟨c, hc, rfl⟩ := execWr_completed hr ht
  exact ⟨_, c.events, ht, rfl, rfl, rfl, (regWrite_changesOnly s.bank.ok hr.declared hc).elsewhere, hkeeps⟩

/-- Settles O40: every event is a `WriteEvent` of a field in the lane, and `lo` tells the fields apart. -/
theorem narrowWriteIsLaneIsolated : Obligations.NarrowWriteIsLaneIsolated := by
  intro s t off wb data d hr h inLane
  obtain ⟨r, hrep, hev⟩ := execWr_event hr h
  refine ⟨r, hrep, fun e he => ?_, fun f hf hout e he hfield => ?_,
    fun g hg hout => execWr_keeps hr h hg (.inr hout)⟩
  · obtain ⟨f, -, -, hw⟩ := hev e he
    cases hw with
    | diag hc v => exact ⟨by simp, fun reg lo x => by simp [hc]⟩
    | callback old new => exact ⟨by simp, by simp⟩
  · obtain ⟨g, hg, hm, hw⟩ := hev e he
    rw [writeEvent_field hw, Option.some.injEq, Prod.mk.injEq] at hfield
    have hgf : g = f := layout_lo_inj s.bank.ok hr.declared hg hf hfield.2
    subst hgf
    exact absurd hm (Bool.eq_false_iff.1 hout)

/-! ### The lane of a narrow READ (42_bus_ops.md R190) -/

/-- A slice below bit `W` of a value is the slice of its `W` low bits. -/
theorem slice_trunc {lo w W : Nat} (h : lo + w ≤ W) (v : Word) : slice (trunc W v) lo w = slice v lo w := by
  apply BitVec.eq_of_getLsbD_eq
  intro i _
  rw [slice_getLsbD, slice_getLsbD, trunc_getLsbD]
  by_cases hi : i < w
  · simp [show lo + i < W by omega]
  · simp [hi]

/-- The lane of an access is a lane of what the native access of the register answers. -/
theorem extractLane_of_native {s : State} {off offN w : Nat} {d : RegDecl} (hr : Reaches s off w d)
    (hn : Reaches s offN s.bank.schema.native d) (R : Word) :
    extractLane s.bank.schema off w R = slice (extractLane s.bank.schema offN s.bank.schema.native R)
      (8 * (off % s.bank.schema.native)) (8 * w) := by
  have hlane := reaches_lane hr
  rw [extractLane_native_eq_trunc hn, slice_trunc (by rw [schemaWidth]; omega)]
  rfl

/-- Settles O33: both READs run the same register read. -/
theorem narrowReadIsALaneOfTheNativeRead : Obligations.NarrowReadIsALaneOfTheNativeRead := by
  intro s off offN wb wbN d hr hn hw
  cases hread : regRead s.bank.schema d s.vals with
  | error e =>
    have hrefused : ∀ {o : Word} {b : BitVec 4}, Reaches s o.toNat b.toNat d → exec (.rd o b) s = .refused e :=
      fun h => by rw [exec_rd, execRd_reaches h, hread]; rfl
    rw [hrefused hr, hrefused hn]
    exact ⟨fun t h => (nomatch h), fun r h => h⟩
  | ok p =>
    obtain ⟨R, c⟩ := p
    have hnext : ∀ {o : Word} {b : BitVec 4}, Reaches s o.toNat b.toNat d →
        exec (.rd o b) s = .next (s.answer (extractLane s.bank.schema o.toNat b.toNat R) c.vals c.events) :=
      fun h => by rw [exec_rd, execRd_reaches h, hread]; rfl
    refine ⟨fun t ht => ?_, fun r h => by rw [hnext hn] at h; cases h⟩
    obtain ⟨r, hrep, hsites, -⟩ := readEventsAreInFieldOrder s t offN wbN d hn ht
    rw [hnext hn] at ht
    cases ht
    rw [events_of_answer hrep] at hsites
    refine ⟨_, _, _, c.events, hnext hr, rfl, rfl, rfl, hsites, ?_⟩
    rw [hw] at hn ⊢
    rw [extractLane_of_native hr hn, slice_toNat]

/-! ### SIZE (42_bus_ops.md R195) -/

/-- Settles O22. -/
theorem sizeAnswersTheSpan : Obligations.SizeAnswersTheSpan := fun s =>
  ⟨sizeResponse s.bank.schema s.replies.length, rfl, fun h => by
    rw [sizeResponse, if_pos h, BitVec.toNat_ofNat, Nat.mod_eq_of_lt h]⟩

end Sys2Proof.Machine
end

section
/-! PROOFS. The statements of 43_construction.md: the construction checks in plain terms, gap filling, and the Enum fields
after RESET. -/

namespace Sys2Proof.Machine

/-! ### RESET and Enum fields (43_construction.md R224) -/

/-- Settles O21: RESET stores the reset slice, which CE3 puts in V. -/
theorem resetLeavesEnumFieldsValid : Obligations.ResetLeavesEnumFieldsValid := by
  intro s t d f h hd hf hk
  have hs : storageKind f.kind = true := by rw [hk]; rfl
  have hst : f ∈ storageFields (schemaWidth s.bank.schema) d := List.mem_filter.2 ⟨hf, hs⟩
  obtain ⟨hdecl, -⟩ := mem_storageFields.1 hst
  rw [exec_rst, execRst_eq] at h
  cases h
  rw [field_def, answer_vals, val_resetVals s.bank.ok hd hst]
  exact enum_reset_valid s.bank.ok hd hdecl hk

/-! ### The construction checks in plain terms (43_construction.md R221) -/

theorem storageKind_eq_false_iff (k : Kind) : storageKind k = false ↔ k = .reserved ∨ k = .tagged := by
  cases k <;> simp [storageKind]

theorem resetSlice_eq_zero_iff (d : RegDecl) (f : FieldDecl) :
    resetSlice d f = 0 ↔ d.reset.toNat / 2 ^ f.lo % 2 ^ f.width = 0 := by
  rw [← resetSlice_toNat, ← BitVec.toNat_inj]
  rfl

section
variable (sch : Schema)

/-- CE2. -/
theorem fieldExceedsWidth_iff : checkHolds sch .fieldExceedsWidth = true ↔
    ∀ d ∈ sch.regs, ∀ f ∈ d.fields, f.lo + f.width ≤ 8 * sch.native := by
  simp only [checkHolds, allFields_iff, decide_eq_true_eq]
  rfl

/-- CE3. -/
theorem resetInvalidEnum_iff : checkHolds sch .resetInvalidEnum = true ↔
    ∀ d ∈ sch.regs, ∀ f ∈ d.fields, f.kind = .enum → d.reset.toNat / 2 ^ f.lo % 2 ^ f.width ∈ f.valid := by
  simp [checkHolds, allFields_iff, resetSlice_toNat, ← imp_iff_not_or]

/-- CE4. -/
theorem fieldWidthZero_iff : checkHolds sch .fieldWidthZero = true ↔
    ∀ d ∈ sch.regs, ∀ f ∈ d.fields, 1 ≤ f.width := by
  simp only [checkHolds, allFields_iff, decide_eq_true_eq]

/-- CE5. -/
theorem flagWidth_iff : checkHolds sch .flagWidth = true ↔
    ∀ d ∈ sch.regs, ∀ f ∈ d.fields, f.kind = .flag → f.width = 1 := by
  simp [checkHolds, allFields_iff, ← imp_iff_not_or]

/-- CE6. -/
theorem enumSetInvalid_iff : checkHolds sch .enumSetInvalid = true ↔
    ∀ d ∈ sch.regs, ∀ f ∈ d.fields, f.kind = .enum → f.valid ≠ [] ∧ ∀ v ∈ f.valid, v < 2 ^ f.width := by
  simp [checkHolds, allFields_iff, ← imp_iff_not_or]

/-- CE7. -/
theorem clampDefaultInvalid_iff : checkHolds sch .clampDefaultInvalid = true ↔
    ∀ d ∈ sch.regs, ∀ f ∈ d.fields, f.kind = .enum → ∀ v, f.policy = .clamp v → v ∈ f.valid := by
  rw [checkHolds, allFields_iff]
  refine forall₄_congr fun d _ f _ => ?_
  cases f.policy <;> simp [← imp_iff_not_or]

/-- CE8: of the storage kinds only Enum is excluded. -/
theorem w1cKind_iff : checkHolds sch .w1cKind = true ↔
    ∀ d ∈ sch.regs, ∀ f ∈ d.fields, storageKind f.kind = true → f.mode = .writeOneToClear →
      f.kind = .flag ∨ f.kind = .unsignedRange := by
  rw [checkHolds, allFields_iff]
  refine forall₄_congr fun d _ f _ => ?_
  cases f.kind <;> simp [storageKind]

/-- CE9. -/
theorem registerOffset_iff : checkHolds sch .registerOffset = true ↔
    ∀ d ∈ sch.regs, d.offset % sch.native = 0 ∧ d.offset + sch.native ≤ sch.size := by
  simp only [checkHolds, List.all_eq_true, Bool.and_eq_true, decide_eq_true_eq]

/-- CE10. -/
theorem duplicateOffset_iff : checkHolds sch .duplicateOffset = true ↔
    sch.regs.Pairwise (fun d e => d.offset ≠ e.offset) := by
  simp only [checkHolds, noPair_iff, decide_eq_false_iff_not, ne_eq]

/-- CE11. -/
theorem widthSet_iff : checkHolds sch .widthSet = true ↔
    sch.native ∈ [1, 2, 4, 8] ∧ (∀ w ∈ sch.permitted, w ∈ [1, 2, 4, 8]) ∧
      (∀ w ∈ sch.permitted, w ≤ sch.native) ∧ sch.native ∈ sch.permitted := by
  simp only [checkHolds, List.all_eq_true, Bool.and_eq_true, decide_eq_true_eq, and_assoc]

/-- CE12. -/
theorem sizeInvalid_iff : checkHolds sch .sizeInvalid = true ↔
    0 < sch.size ∧ sch.size % sch.native = 0 ∧ sch.size ≤ 2 ^ sch.addrBits := by
  simp only [checkHolds, Bool.and_eq_true, decide_eq_true_eq, and_assoc]

/-- CE13. -/
theorem callbackOnNonStorage_iff : checkHolds sch .callbackOnNonStorage = true ↔
    ∀ d ∈ sch.regs, ∀ f ∈ d.fields, f.kind = .reserved ∨ f.kind = .tagged → f.wcb = none ∧ f.rcb = none := by
  rw [checkHolds, allFields_iff]
  refine forall₄_congr fun d _ f _ => ?_
  rw [← storageKind_eq_false_iff]
  cases storageKind f.kind <;> simp

/-- CE14. -/
theorem resetReservedNonzero_iff : checkHolds sch .resetReservedNonzero = true ↔
    ∀ d ∈ sch.regs, ∀ f ∈ layout (8 * sch.native) d, f.kind = .reserved ∨ f.kind = .tagged →
      d.reset.toNat / 2 ^ f.lo % 2 ^ f.width = 0 := by
  simp only [checkHolds, List.all_eq_true, schemaWidth]
  refine forall₄_congr fun d _ f _ => ?_
  rw [← storageKind_eq_false_iff, ← resetSlice_eq_zero_iff]
  cases storageKind f.kind <;> simp

/-- CE15. -/
theorem addrBits_iff : checkHolds sch .addrBits = true ↔ 1 ≤ sch.addrBits ∧ sch.addrBits ≤ 64 := by
  simp only [checkHolds, Bool.and_eq_true, decide_eq_true_eq]

/-- Construction answers a bank for the well-formed schemas (43_construction.md R223). -/
theorem construct_eq_some_iff : (∃ s, construct sch = some s) ↔ schemaWellFormed sch = true := by
  by_cases h : schemaWellFormed sch = true <;> simp [construct, h]

end

/-- Settles O18: the schema is well-formed when all checks hold, and each check says its clause. -/
theorem schemaIsABankExactlyWhenEveryCheckHolds : Obligations.SchemaIsABankExactlyWhenEveryCheckHolds := by
  intro sch
  rw [construct_eq_some_iff]
  simp only [schemaWellFormed, allChecks, List.all_cons, List.all_nil, Bool.and_true, Bool.and_eq_true]
  rw [fieldOverlap_iff, fieldExceedsWidth_iff, resetInvalidEnum_iff, fieldWidthZero_iff, flagWidth_iff,
    enumSetInvalid_iff, clampDefaultInvalid_iff, w1cKind_iff, registerOffset_iff, duplicateOffset_iff, widthSet_iff,
    sizeInvalid_iff, callbackOnNonStorage_iff, resetReservedNonzero_iff, addrBits_iff]

/-! ### Gap filling (43_construction.md R231) -/

/-- An implicit field has a bit and shares none with a declared field. -/
theorem not_declared_of_implicit {W : Nat} {fs : List FieldDecl} {f : FieldDecl} (hf : f ∈ implicitFields W fs) :
    f ∉ fs := by
  intro hd
  have hw := ((implicitFields_spec W fs).1 f hf).2.1
  have := (fieldsOverlap_false_iff f f).1 (implicit_apart hd hf)
  omega

/-- The fields of a layout that are not declared are the implicit ones. -/
theorem mem_implicitFields_iff {W : Nat} {d : RegDecl} {f : FieldDecl} :
    f ∈ implicitFields W d.fields ↔ f ∈ layout W d ∧ f ∉ d.fields :=
  ⟨fun h => ⟨mem_layout_iff.2 (.inr h), not_declared_of_implicit h⟩,
    fun ⟨hl, hn⟩ => (mem_layout_iff.1 hl).resolve_left hn⟩

/-- A bit of an implicit field belongs to no declared field. -/
theorem not_covered_of_implicit {W : Nat} {fs : List FieldDecl} {f : FieldDecl} (hf : f ∈ implicitFields W fs) {i : Nat}
    (hi : f.lo ≤ i ∧ i < f.lo + f.width) : ¬ Covered fs i :=
  (((implicitFields_spec W fs).2.2 i).1 ⟨f, hf, hi⟩).2

theorem implicitFields_nodup (W : Nat) (fs : List FieldDecl) : (implicitFields W fs).Nodup :=
  (implicitFields_spec W fs).2.1.imp fun {a b} hab e => by subst e; omega

/-- No implicit field is listed twice in a layout. -/
theorem undeclared_nodup (W : Nat) (d : RegDecl) :
    ((layout W d).filter fun f => decide (f ∉ d.fields)).Nodup := by
  have hp : (layout W d).Perm (d.fields ++ implicitFields W d.fields) := List.perm_insertionSort _ _
  have hnone : d.fields.filter (fun f => decide (f ∉ d.fields)) = [] := by simp
  rw [(hp.filter _).nodup_iff, List.filter_append, hnone, List.nil_append]
  exact (implicitFields_nodup W d.fields).filter _

/-- A maximal run `[a, e]` of undeclared bits is an implicit field: the one that covers `a` ends where the run ends. -/
theorem exists_implicit_of_run {W : Nat} {fs : List FieldDecl} {a e : Nat} (hae : a ≤ e) (heW : e < W)
    (hrun : ∀ i, a ≤ i → i ≤ e → ¬ Covered fs i) (ha : a = 0 ∨ Covered fs (a - 1))
    (he : e + 1 = W ∨ Covered fs (e + 1)) :
    ∃ f ∈ implicitFields W fs, f.lo = a ∧ f.width = e - a + 1 ∧ f.kind = .reserved := by
  obtain ⟨hspec, -, hcover⟩ := implicitFields_spec W fs
  obtain ⟨f, hf, hfa⟩ := (hcover a).2 ⟨by omega, hrun a le_rfl hae⟩
  obtain ⟨hgap, -, hW, -, hend⟩ := hspec f hf
  have hlo : f.lo = a := by
    by_contra hne
    exact not_covered_of_implicit hf (i := a - 1) (by omega) (ha.resolve_left (by omega))
  have hle : f.lo + f.width ≤ e + 1 := by
    by_contra hlt
    exact not_covered_of_implicit hf (i := e + 1) (by omega) (he.resolve_left (by omega))
  have hge : e + 1 ≤ f.lo + f.width := by
    by_contra hlt
    exact hrun _ (by omega) (by omega) (hend.resolve_left (by omega))
  exact ⟨f, hf, hlo, by omega, by rw [hgap]; rfl⟩

/-- Settles O17: the implicit fields are the maximal runs of bits that no declared field covers. -/
theorem gapsBecomeReservedFields : Obligations.GapsBecomeReservedFields := by
  intro sch d _ _ _
  refine ⟨fun f hf => mem_layout_of_declared hf, fun f hf hnd => ?_, undeclared_nodup _ d,
    fun a e hae heW hrun ha he => ?_⟩
  · have hi := mem_implicitFields_iff.2 ⟨hf, hnd⟩
    obtain ⟨-, hw, hW, hstart, hend⟩ := (implicitFields_spec _ _).1 f hi
    obtain ⟨lo, width, rfl⟩ := (mem_layout hf).resolve_left hnd
    exact ⟨rfl, rfl, rfl, rfl, hw, hW,
      fun i h1 h2 g hg hgi => not_covered_of_implicit hi ⟨h1, h2⟩ ⟨g, hg, hgi⟩, hstart, hend⟩
  · obtain ⟨f, hf, hrest⟩ := exists_implicit_of_run hae heW
      (fun i h1 h2 ⟨g, hg, hgi⟩ => hrun i h1 h2 g hg hgi) ha he
    exact ⟨f, (mem_implicitFields_iff.1 hf).1, hrest⟩

end Sys2Proof.Machine
end

section
/-! PROOFS. The statements of 60_exceptions.md: the access of a width that is not permitted, and the refusals. -/

namespace Sys2Proof.Machine

/-! ### Illegal width (60_exceptions.md R253) -/

/-- Settles O27: the width check comes first, so the access is absorbed with its anomaly. -/
theorem illegalWidthIsAbsorbed : Obligations.IllegalWidthIsAbsorbed := fun _ _ _ data hw =>
  exec_access_absorbed (accessCheck_illegalWidth hw) data

/-! ### The refusals (60_exceptions.md R262) -/

theorem regWrite_error {sch : Schema} {d : RegDecl} {v M : Word} {vals : Store} {e : Refusal}
    (hr : regWrite sch d v M vals = .error e) : e = .callbackChangesConstant := writeFields_error hr

/-- The refusals of an ISET (40_field_ops.md R150). -/
def badIsetTarget (r : Refusal) : Prop :=
  r = .isetNoRegister ∨ r = .isetNoField ∨ r = .isetNonStorage ∨ r = .isetConstant ∨ r = .isetValueTooWide

/-- ISET refuses only for its target or its value. -/
theorem iset_error {sch : Schema} {r lo : Nat} {x : Word} {vals : Store} {e : Refusal}
    (h : iset sch r lo x vals = .error e) : badIsetTarget e := by
  rw [iset] at h
  split at h
  · cases h; exact .inl rfl
  · split at h
    · cases h; exact .inr (.inl rfl)
    · split_ifs at h with hstorage hconstant hwide
      · cases h; exact .inr (.inr (.inl rfl))
      · cases h; exact .inr (.inr (.inr (.inl rfl)))
      · cases h; exact .inr (.inr (.inr (.inr rfl)))

/-- Settles O11: a register access is refused by a callback only, an ISET for its target or value, and the other
operations always answer. -/
theorem onlyTheseRefusalsHappen : Obligations.OnlyTheseRefusalsHappen := by
  intro i s r h
  cases i with
  | rd off wb =>
    obtain ⟨d, hr, hread⟩ := execRd_refused h
    exact .inl ⟨off, wb, d, hr, .inl rfl, regRead_error hread⟩
  | wr off wb data =>
    obtain ⟨d, hr, hwrite⟩ := execWr_refused h
    exact .inl ⟨off, wb, d, hr, .inr ⟨data, rfl⟩, regWrite_error hwrite⟩
  | iset off flo data => exact .inr ⟨off, flo, data, rfl, iset_error (execIset_refused h)⟩
  | rst => cases h
  | size => cases h
  | malformed hdr => cases h

end Sys2Proof.Machine
end

section
/-! PROOFS. The statements of 70_reset_and_hazards.md: the store of a newly constructed bank lists exactly the storage
fields, so the bank meets the invariant, and RESET gives that store again. -/

namespace Sys2Proof.Machine

/-! ### What a newly constructed bank lists (70_reset_and_hazards.md R281) -/

/-- RegReset adds the places of its fields to the listed ones. -/
theorem mem_keys_regReset (d : RegDecl) (fs : List FieldDecl) (vals : Store) (k : Nat × Nat) :
    k ∈ (regReset d fs vals).map Cell.key ↔ (∃ f ∈ fs, (d.offset, f.lo) = k) ∨ k ∈ vals.map Cell.key := by
  induction fs generalizing vals with
  | nil => simp [regReset]
  | cons f fs ih =>
    rw [regReset, ih, keys_put_subset, List.exists_mem_cons_iff, eq_comm (a := k), or_assoc, or_left_comm]

theorem mem_keys_resetRegs (W : Nat) (ds : List RegDecl) (vals : Store) (k : Nat × Nat) :
    k ∈ (resetRegs W ds vals).map Cell.key ↔
      (∃ d ∈ ds, ∃ f ∈ storageFields W d, (d.offset, f.lo) = k) ∨ k ∈ vals.map Cell.key := by
  induction ds generalizing vals with
  | nil => simp [resetRegs]
  | cons d ds ih =>
    rw [resetRegs, ih, mem_keys_regReset, List.exists_mem_cons_iff, or_assoc, or_left_comm]

theorem mem_keys_powerOnVals (sch : Schema) (k : Nat × Nat) :
    k ∈ (powerOnVals sch).map Cell.key ↔ k ∈ storageKeys sch := by
  rw [powerOnVals, mem_keys_resetRegs, mem_storageKeys]
  simp only [mem_sortRegs, List.map_nil, List.not_mem_nil, or_false]

/-- Lists of rising places with the same members are equal. -/
theorem rising_keys_ext {ks ls : List (Nat × Nat)} (hk : ks.Pairwise (keyLt · · = true))
    (hl : ls.Pairwise (keyLt · · = true)) (h : ∀ k, k ∈ ks ↔ k ∈ ls) : ks = ls := by
  have : Std.Irrefl (keyLt · · = true) := ⟨keyLt_irrefl⟩
  have : Std.Antisymm (keyLt · · = true) := ⟨fun a _ hab hba => absurd (keyLt_trans hab hba) (keyLt_irrefl a)⟩
  exact hk.eq_of_mem_iff hl h

theorem keys_powerOnVals {sch : Schema} (h : schemaWellFormed sch = true) :
    (powerOnVals sch).map Cell.key = storageKeys sch :=
  rising_keys_ext ((store_wf_iff _).1 (store_wf_powerOn sch)) (storageKeys_rise h) (mem_keys_powerOnVals sch)

/-! ### Construction meets the invariant -/

/-- Settles O13: the store lists the storage fields, and each holds its reset slice. -/
theorem powerOnMeetsTheInvariant : Obligations.PowerOnMeetsTheInvariant := by
  intro b
  have hreset : ∀ d ∈ b.schema.regs, ∀ f ∈ (State.ofBank b).storage d,
      (State.ofBank b).field d f = resetSlice d f := fun d hd f hf => val_resetVals b.ok hd hf []
  refine ⟨keys_powerOnVals b.ok, fun d hd f hf => ?_, fun d hd f hf _ => hreset d hd f hf⟩
  rw [hreset d hd f hf]
  exact slice_lt ..

/-- Settles O14: EX is one of the banks. -/
theorem resetStateMeetsTheInvariant : Obligations.ResetStateMeetsTheInvariant := powerOnMeetsTheInvariant exBank

/-! ### RESET gives the power-on store (70_reset_and_hazards.md R282) -/

/-- RESET of a store that lists the storage fields gives the power-on store: both list the same places in the same order
and hold the reset slice in each. -/
theorem resetVals_eq_powerOnVals {sch : Schema} (h : schemaWellFormed sch = true) {vals : Store}
    (hk : vals.map Cell.key = storageKeys sch) : resetVals sch vals = powerOnVals sch := by
  have hkeys : (resetVals sch vals).map Cell.key = storageKeys sch := keys_resetVals h hk
  refine store_ext (store_wf_of_keys h hkeys) (hkeys.trans (keys_powerOnVals h).symm) fun k hmem => ?_
  rw [hkeys] at hmem
  obtain ⟨d, hd, f, hf, rfl⟩ := mem_storageKeys.1 hmem
  rw [powerOnVals_eq, val_resetVals h hd hf, val_resetVals h hd hf]

/-- Settles O20. -/
theorem resetGivesThePowerOnValues : Obligations.ResetGivesThePowerOnValues := by
  intro s hi
  rw [exec_rst, execRst_eq, resetVals_eq_powerOnVals s.bank.ok hi.keys]
  rfl

end Sys2Proof.Machine
end
